-- ==== Sys2Proof/Word.lean ====
section
/-! DEFINITION. The words of the machine: bytes, 16-bit words, and the small fields of an instruction. -/

namespace Sys2Proof

/-- A general register, a timer, a memory byte, an 8-bit immediate: 0..255, unsigned (00_scope.md R8). -/
abbrev Byte := BitVec 8

/-- An instruction word, `I`, `PC` and a stack entry: 16 bits (00_scope.md R6). -/
abbrev Word := BitVec 16

/-- One of the four 4-bit fields of an instruction word (00_scope.md R9). -/
abbrev Nibble := BitVec 4

/-- The 12-bit address field `nnn` (30_encoding.md R82). -/
abbrev Addr12 := BitVec 12

/-- A general register's number, 0..15 (10_state.md R20). -/
abbrev Reg := Fin 16

/-- A key code, 0x0..0xF (10_state.md R31). -/
abbrev KeyCode := BitVec 4

end Sys2Proof
end

