-- ==== Sys2Proof/Config.lean ====
section
/-! DEFINITION. The free values: what the spec leaves to the outside world.
None has a body, so no proof can see what it is: a claim that mentions one holds whatever the host, the random
source and the timer agents do. Each is read at a plain counter held in State (the `taken` count of a `Feed`).
The numbers an implementation fixes (MEM_SIZE, PROG_START, HALT_LIMIT, the font, MEM_FILL) stand in
Sys2Proof/Machine/Params.lean. -/

namespace Sys2Proof.Config

/-- What the host's key input port delivers to the n-th poll (45_keypad_timers.md R170: `key_in` is a free input,
under no law). notes/assumptions/2.md. -/
opaque keyIn : Nat → Option KeyCode

/-- The byte the random source delivers to the n-th execution of RND (42_alu.md R146: `rnd_in` is a free input, under no law).
notes/assumptions/2.md. -/
opaque rndIn : Nat → Byte

/-- How many steps pass without a Delay tick before the n-th burst of Delay ticks, a burst being the ticks between two
consecutive steps when there is one (60_exceptions.md R197). Each pause is finite, which is the weak fairness of R197:
`freeTicks` (Sys2Proof/Machine/Timers.lean) is the schedule. notes/assumptions/3.md. -/
opaque delayPause : Nat → Nat

/-- How many Delay ticks the n-th burst has beyond its first (60_exceptions.md R197). notes/assumptions/3.md. -/
opaque delayBurst : Nat → Nat

/-- The pauses of the Sound timer agent. The two agents are independent (60_exceptions.md R196), so this is a value of its own.
notes/assumptions/3.md. -/
opaque soundPause : Nat → Nat

/-- The bursts of the Sound timer agent (60_exceptions.md R197). notes/assumptions/3.md. -/
opaque soundBurst : Nat → Nat

end Sys2Proof.Config
end

