-- ==== Sys2Proof/Syntax.lean ====
section
/-! DEFINITION. The instructions: one constructor per row of spec/opcode_table.json, in its order (30_encoding.md R84). -/

namespace Sys2Proof

/-- The 34 instructions of 30_encoding.md R84. `x`, `y` are register numbers, `kk` an 8-bit immediate, `nnn` a 12-bit
address, `n` a count of sprite rows (R82). The shifts keep the field `y`, which they do not read (R86). -/
inductive Instr where
  /-- `00E0` CLS -/
  | cls
  /-- `00EE` RET -/
  | ret
  /-- `1nnn` JP nnn -/
  | jp (nnn : Addr12)
  /-- `2nnn` CALL nnn -/
  | call (nnn : Addr12)
  /-- `3xkk` SE Vx,kk -/
  | seVxKk (x : Reg) (kk : Byte)
  /-- `4xkk` SNE Vx,kk -/
  | sneVxKk (x : Reg) (kk : Byte)
  /-- `5xy0` SE Vx,Vy -/
  | seVxVy (x y : Reg)
  /-- `6xkk` LD Vx,kk -/
  | ldVxKk (x : Reg) (kk : Byte)
  /-- `7xkk` ADD Vx,kk -/
  | addVxKk (x : Reg) (kk : Byte)
  /-- `8xy0` LD Vx,Vy -/
  | ldVxVy (x y : Reg)
  /-- `8xy1` OR Vx,Vy -/
  | orVxVy (x y : Reg)
  /-- `8xy2` AND Vx,Vy -/
  | andVxVy (x y : Reg)
  /-- `8xy3` XOR Vx,Vy -/
  | xorVxVy (x y : Reg)
  /-- `8xy4` ADD Vx,Vy -/
  | addVxVy (x y : Reg)
  /-- `8xy5` SUB Vx,Vy -/
  | subVxVy (x y : Reg)
  /-- `8xy6` SHR Vx (with an encoded, unread Vy) -/
  | shrVx (x y : Reg)
  /-- `8xy7` SUBN Vx,Vy -/
  | subnVxVy (x y : Reg)
  /-- `8xyE` SHL Vx (with an encoded, unread Vy) -/
  | shlVx (x y : Reg)
  /-- `9xy0` SNE Vx,Vy -/
  | sneVxVy (x y : Reg)
  /-- `Annn` LD I,nnn -/
  | ldINnn (nnn : Addr12)
  /-- `Bnnn` JP V0,nnn -/
  | jpV0Nnn (nnn : Addr12)
  /-- `Cxkk` RND Vx,kk -/
  | rndVxKk (x : Reg) (kk : Byte)
  /-- `Dxyn` DRW Vx,Vy,n -/
  | drwVxVyN (x y : Reg) (n : Nat)
  /-- `Ex9E` SKP Vx -/
  | skpVx (x : Reg)
  /-- `ExA1` SKNP Vx -/
  | sknpVx (x : Reg)
  /-- `Fx07` LD Vx,DT -/
  | ldVxDt (x : Reg)
  /-- `Fx0A` LD Vx,K -/
  | ldVxK (x : Reg)
  /-- `Fx15` LD DT,Vx -/
  | ldDtVx (x : Reg)
  /-- `Fx18` LD ST,Vx -/
  | ldStVx (x : Reg)
  /-- `Fx1E` ADD I,Vx -/
  | addIVx (x : Reg)
  /-- `Fx29` LD F,Vx -/
  | ldFVx (x : Reg)
  /-- `Fx33` LD B,Vx -/
  | ldBVx (x : Reg)
  /-- `Fx55` LD [I],Vx: store V0..Vx -/
  | ldMemVx (x : Reg)
  /-- `Fx65` LD Vx,[I]: load V0..Vx -/
  | ldVxMem (x : Reg)
  deriving DecidableEq, Repr

end Sys2Proof
end

