-- ==== Sys2Proof/WellFormed.lean ====
section
/-! DEFINITION. Which terms of Instr are instructions. The widths of registers, immediates and addresses are in their types,
so one check is left: a sprite's row count fits its 4-bit field. -/

namespace Sys2Proof

/-- The largest sprite row count the field `n` holds (30_encoding.md R82). -/
abbrev maxSpriteRows : Nat := 15

/-- A term of Instr that a word of 30_encoding.md R84 can stand for. -/
def Instr.wf : Instr → Bool
  | .cls | .ret => true
  | .jp _ | .call _ | .ldINnn _ | .jpV0Nnn _ => true
  | .seVxKk _ _ | .sneVxKk _ _ | .ldVxKk _ _ | .addVxKk _ _ | .rndVxKk _ _ => true
  | .seVxVy _ _ | .sneVxVy _ _ => true
  | .ldVxVy _ _ | .orVxVy _ _ | .andVxVy _ _ | .xorVxVy _ _ | .addVxVy _ _ | .subVxVy _ _ => true
  | .shrVx _ _ | .subnVxVy _ _ | .shlVx _ _ => true
  | .drwVxVyN _ _ n => decide (n ≤ maxSpriteRows)
  | .skpVx _ | .sknpVx _ | .ldVxDt _ | .ldVxK _ | .ldDtVx _ | .ldStVx _ => true
  | .addIVx _ | .ldFVx _ | .ldBVx _ | .ldMemVx _ | .ldVxMem _ => true

end Sys2Proof
end

