-- ==== Sys2Proof/Decode.lean ====
section
/-! DEFINITION. The decoder, total on every word and on every list of bytes, and the encoder (30_encoding.md R80 to R85). -/

namespace Sys2Proof

/-- Why bytes are no instruction. -/
inductive DecodeError where
  /-- The word matches no row of R84 (R85). -/
  | illegal (op : Word)
  /-- Fewer than the two bytes of an instruction (R80). Never met by a fetch. -/
  | truncated
  deriving DecidableEq, Repr

/-! ### The fields of a word (00_scope.md R9, 30_encoding.md R82) -/

/-- `o1 = op[15:12]`, the primary opcode. -/
def fieldO1 (op : Word) : Nibble := op.extractLsb' 12 4

/-- `x = o2 = op[11:8]`. -/
def fieldX (op : Word) : Reg := (op.extractLsb' 8 4).toFin

/-- `y = o3 = op[7:4]`. -/
def fieldY (op : Word) : Reg := (op.extractLsb' 4 4).toFin

/-- `o4 = op[3:0]`. -/
def fieldO4 (op : Word) : Nibble := op.extractLsb' 0 4

/-- `n = o4`, the count of sprite rows. -/
def fieldN (op : Word) : Nat := (fieldO4 op).toNat

/-- `kk = op[7:0]`. -/
def fieldKk (op : Word) : Byte := op.extractLsb' 0 8

/-- `nnn = op[11:0]`. -/
def fieldNnn (op : Word) : Addr12 := op.extractLsb' 0 12

/-! ### Decoding by exact nibble pattern (R83, R84) -/

/-- Primary opcode 0: two whole words (rows 1, 2). -/
def decodeGroup0 (op : Word) : Except DecodeError Instr :=
  if op = 0x00E0 then .ok .cls
  else if op = 0x00EE then .ok .ret
  else .error (.illegal op)

/-- Primary opcodes 5 and 9: the low nibble is 0, not a don't-care (R86). -/
def decodeXY0 (op : Word) (i : Reg → Reg → Instr) : Except DecodeError Instr :=
  if fieldO4 op = 0 then .ok (i (fieldX op) (fieldY op)) else .error (.illegal op)

/-- Primary opcode 8, told apart by the low nibble (rows 10 to 18). -/
def decodeGroup8 (op : Word) : Except DecodeError Instr :=
  match (fieldO4 op).toNat with
  | 0x0 => .ok (.ldVxVy (fieldX op) (fieldY op))
  | 0x1 => .ok (.orVxVy (fieldX op) (fieldY op))
  | 0x2 => .ok (.andVxVy (fieldX op) (fieldY op))
  | 0x3 => .ok (.xorVxVy (fieldX op) (fieldY op))
  | 0x4 => .ok (.addVxVy (fieldX op) (fieldY op))
  | 0x5 => .ok (.subVxVy (fieldX op) (fieldY op))
  | 0x6 => .ok (.shrVx (fieldX op) (fieldY op))
  | 0x7 => .ok (.subnVxVy (fieldX op) (fieldY op))
  | 0xE => .ok (.shlVx (fieldX op) (fieldY op))
  | _ => .error (.illegal op)

/-- Primary opcode E, told apart by the low byte (rows 24, 25). -/
def decodeGroupE (op : Word) : Except DecodeError Instr :=
  match (fieldKk op).toNat with
  | 0x9E => .ok (.skpVx (fieldX op))
  | 0xA1 => .ok (.sknpVx (fieldX op))
  | _ => .error (.illegal op)

/-- Primary opcode F, told apart by the low byte (rows 26 to 34). -/
def decodeGroupF (op : Word) : Except DecodeError Instr :=
  match (fieldKk op).toNat with
  | 0x07 => .ok (.ldVxDt (fieldX op))
  | 0x0A => .ok (.ldVxK (fieldX op))
  | 0x15 => .ok (.ldDtVx (fieldX op))
  | 0x18 => .ok (.ldStVx (fieldX op))
  | 0x1E => .ok (.addIVx (fieldX op))
  | 0x29 => .ok (.ldFVx (fieldX op))
  | 0x33 => .ok (.ldBVx (fieldX op))
  | 0x55 => .ok (.ldMemVx (fieldX op))
  | 0x65 => .ok (.ldVxMem (fieldX op))
  | _ => .error (.illegal op)

/-- The instruction a word stands for, or the verdict illegal (R83, R84, R85). -/
def decode (op : Word) : Except DecodeError Instr :=
  match (fieldO1 op).toNat with
  | 0x0 => decodeGroup0 op
  | 0x1 => .ok (.jp (fieldNnn op))
  | 0x2 => .ok (.call (fieldNnn op))
  | 0x3 => .ok (.seVxKk (fieldX op) (fieldKk op))
  | 0x4 => .ok (.sneVxKk (fieldX op) (fieldKk op))
  | 0x5 => decodeXY0 op .seVxVy
  | 0x6 => .ok (.ldVxKk (fieldX op) (fieldKk op))
  | 0x7 => .ok (.addVxKk (fieldX op) (fieldKk op))
  | 0x8 => decodeGroup8 op
  | 0x9 => decodeXY0 op .sneVxVy
  | 0xA => .ok (.ldINnn (fieldNnn op))
  | 0xB => .ok (.jpV0Nnn (fieldNnn op))
  | 0xC => .ok (.rndVxKk (fieldX op) (fieldKk op))
  | 0xD => .ok (.drwVxVyN (fieldX op) (fieldY op) (fieldN op))
  | 0xE => decodeGroupE op
  | 0xF => decodeGroupF op
  | _ => .error (.illegal op)

/-- The word two bytes make, the byte at the lower address being the high one (20_memory.md R51). -/
def wordOfBytes (hi lo : Byte) : Word := hi ++ lo

/-- The bytes of a word as memory holds them, high byte first (20_memory.md R51). -/
def bytesOfWord (op : Word) : List Byte := [op.extractLsb' 8 8, op.extractLsb' 0 8]

/-- The first instruction of a list of bytes, and the bytes after it (R80). -/
def decodeBytes : List Byte → Except DecodeError (Instr × List Byte)
  | hi :: lo :: rest => (decode (wordOfBytes hi lo)).map fun i => (i, rest)
  | _ => .error .truncated

/-- The bytes of a row's word as memory holds them: every row has 16 bits, and bits above `nbits` are 0. -/
def tableWordBytes (nbits w : Nat) : List Byte := bytesOfWord (BitVec.ofNat 16 (w % 2 ^ nbits))

/-- The instruction the decoder reads from a row's word, laid out as the hardware stores it. -/
def decodeTableWord (nbits w : Nat) : Option Instr :=
  match decodeBytes (tableWordBytes nbits w) with
  | .ok (i, _) => some i
  | .error _ => none

/-! ### The six formats (R81) and the encoder -/

/-- Format A: `o1`, 12-bit address. -/
def formatA (o1 : Nibble) (nnn : Addr12) : Word := o1 ++ nnn

/-- Format XK: `o1`, register, 8-bit immediate. Format X is the same shape, its low byte being a function code. -/
def formatXK (o1 : Nibble) (x : Reg) (kk : Byte) : Word := o1 ++ (BitVec.ofFin x : Nibble) ++ kk

/-- Format XY: `o1`, two registers, function nibble. Format XYN is the same shape, its low nibble being the count. -/
def formatXY (o1 : Nibble) (x y : Reg) (o4 : Nibble) : Word :=
  o1 ++ (BitVec.ofFin x : Nibble) ++ (BitVec.ofFin y : Nibble) ++ o4

/-- The word of an instruction (R84). Only a well-formed DRW has one of its own. -/
def encode : Instr → Word
  | .cls => 0x00E0
  | .ret => 0x00EE
  | .jp nnn => formatA 0x1 nnn
  | .call nnn => formatA 0x2 nnn
  | .seVxKk x kk => formatXK 0x3 x kk
  | .sneVxKk x kk => formatXK 0x4 x kk
  | .seVxVy x y => formatXY 0x5 x y 0x0
  | .ldVxKk x kk => formatXK 0x6 x kk
  | .addVxKk x kk => formatXK 0x7 x kk
  | .ldVxVy x y => formatXY 0x8 x y 0x0
  | .orVxVy x y => formatXY 0x8 x y 0x1
  | .andVxVy x y => formatXY 0x8 x y 0x2
  | .xorVxVy x y => formatXY 0x8 x y 0x3
  | .addVxVy x y => formatXY 0x8 x y 0x4
  | .subVxVy x y => formatXY 0x8 x y 0x5
  | .shrVx x y => formatXY 0x8 x y 0x6
  | .subnVxVy x y => formatXY 0x8 x y 0x7
  | .shlVx x y => formatXY 0x8 x y 0xE
  | .sneVxVy x y => formatXY 0x9 x y 0x0
  | .ldINnn nnn => formatA 0xA nnn
  | .jpV0Nnn nnn => formatA 0xB nnn
  | .rndVxKk x kk => formatXK 0xC x kk
  | .drwVxVyN x y n => formatXY 0xD x y (BitVec.ofNat 4 n)
  | .skpVx x => formatXK 0xE x 0x9E
  | .sknpVx x => formatXK 0xE x 0xA1
  | .ldVxDt x => formatXK 0xF x 0x07
  | .ldVxK x => formatXK 0xF x 0x0A
  | .ldDtVx x => formatXK 0xF x 0x15
  | .ldStVx x => formatXK 0xF x 0x18
  | .addIVx x => formatXK 0xF x 0x1E
  | .ldFVx x => formatXK 0xF x 0x29
  | .ldBVx x => formatXK 0xF x 0x33
  | .ldMemVx x => formatXK 0xF x 0x55
  | .ldVxMem x => formatXK 0xF x 0x65

end Sys2Proof
end

