-- ==== Sys2Proof/Machine/Params.lean ====
section
/-! DEFINITION. The numbers of this implementation (00_scope.md R6, R7): memory size, start and halt addresses, the font, the
memory fill. -/

namespace Sys2Proof.Machine

/-- `MEM_SIZE`: valid addresses are 0 .. 4095 (R7, 92_eei_decisions.md D1). -/
def memSize : Nat := 4096

/-- `PROG_START`: reset value of PC and first address a load writes (R7, D2). -/
def progStart : Nat := 0x200

/-- `HALT_LIMIT = MEM_SIZE - 2`: the first PC at which the engine is halted (10_state.md R26, D11). -/
def haltLimit : Nat := memSize - 2

/-- `FONT_BASE`: the address of glyph 0 (R6). -/
def fontBase : Nat := 0

/-- `GLYPH_BYTES`: a glyph is 5 bytes long (R6, 90_conflicts.md C8). -/
def glyphBytes : Nat := 5

/-- Glyphs 0 to 7 of the font (10_state.md R37). -/
def fontLow : List Byte :=
  [0xF0, 0x90, 0x90, 0x90, 0xF0] ++ [0x20, 0x60, 0x20, 0x20, 0x70] ++
  [0xF0, 0x10, 0xF0, 0x80, 0xF0] ++ [0xF0, 0x10, 0xF0, 0x10, 0xF0] ++
  [0x90, 0x90, 0xF0, 0x10, 0x10] ++ [0xF0, 0x80, 0xF0, 0x10, 0xF0] ++
  [0xF0, 0x80, 0xF0, 0x90, 0xF0] ++ [0xF0, 0x10, 0x20, 0x40, 0x40]

/-- Glyphs 8 to F of the font (10_state.md R37). -/
def fontHigh : List Byte :=
  [0xF0, 0x90, 0xF0, 0x90, 0xF0] ++ [0xF0, 0x90, 0xF0, 0x10, 0xF0] ++
  [0xF0, 0x90, 0xF0, 0x90, 0x90] ++ [0xE0, 0x90, 0xE0, 0x90, 0xE0] ++
  [0xF0, 0x80, 0x80, 0x80, 0xF0] ++ [0xE0, 0x90, 0x90, 0x90, 0xE0] ++
  [0xF0, 0x80, 0xF0, 0x80, 0xF0] ++ [0xF0, 0x80, 0xF0, 0x80, 0x80]

/-- `FONT[0..79]`: the bytes memory holds at addresses 0..79 after reset (10_state.md R37, D3). -/
def font : List Byte := fontLow ++ fontHigh

/-- `MEM_FILL(a)`: what a byte outside the font reads as after reset. The spec leaves it open and recommends 0x00 (R7, D4).
DESIGN CHOICE, unsafe: notes/assumptions/1.md. -/
def memFill (_a : Nat) : Byte := 0x00

end Sys2Proof.Machine
end

