-- ==== Sys2Proof/Machine/Memory.lean ====
section
/-! DEFINITION. The memory array MEM: a list of (address, byte) pairs in one canonical form (10_state.md R32, 20_memory.md R50
to R57). Instructions check a whole range before they touch it (`firstOutOfRange`). -/

namespace Sys2Proof.Machine

/-- `MEM`: the bytes that differ from what an unlisted address reads as. -/
abbrev Memory := List Host.Cell

/-- What an address with no cell reads as: `FONT` in 0..79, `MEM_FILL` elsewhere (10_state.md R32). -/
def unlisted (a : Nat) : Byte := if h : a < font.length then font[a] else memFill a

/-- The canonical form: addresses strictly rising and below MEM_SIZE, no cell that says what an unlisted address says. -/
abbrev Memory.wf (m : Memory) : Prop :=
  m.Pairwise (fun c d => c.1 < d.1) ∧ ∀ c ∈ m, c.1 < memSize ∧ c.2 ≠ unlisted c.1

/-- The byte `MEM[a]`. -/
def Memory.read (m : Memory) (a : Nat) : Byte :=
  match m with
  | [] => unlisted a
  | (b, w) :: rest => if b = a then w else Memory.read rest a

/-- The cells that say `MEM[a] = v` in front of `rest`: none where an unlisted address says so already. -/
def Memory.cellsFor (a : Nat) (v : Byte) (rest : Memory) : Memory := if v = unlisted a then rest else (a, v) :: rest

/-- `MEM[a] <- v`, for `a` below MEM_SIZE; keeps the canonical form. -/
def Memory.write (m : Memory) (a : Nat) (v : Byte) : Memory :=
  match m with
  | [] => Memory.cellsFor a v []
  | (b, w) :: rest =>
    if a < b then Memory.cellsFor a v ((b, w) :: rest)
    else if a = b then Memory.cellsFor a v rest
    else (b, w) :: Memory.write rest a v

/-- The `n` bytes at `a`, `a+1`, ...: one-byte accesses at ascending addresses (20_memory.md R53). -/
def Memory.readBytes (m : Memory) (a n : Nat) : List Byte := (List.range n).map fun k => m.read (a + k)

/-- Writes bytes at `a`, `a+1`, ...: one-byte accesses at ascending addresses (20_memory.md R53). -/
def Memory.writeBytes (m : Memory) (a : Nat) : List Byte → Memory
  | [] => m
  | v :: vs => Memory.writeBytes (m.write a v) (a + 1) vs

/-- The lowest address of `a .. a+n-1` that is not below MEM_SIZE, if the range holds one. Addresses do not wrap, and an
empty range holds none (20_memory.md R54). -/
def firstOutOfRange (a n : Nat) : Option Nat :=
  if 0 < n ∧ memSize ≤ a + n - 1 then some (max a memSize) else none

end Sys2Proof.Machine
end

