-- ==== Sys2Proof/Machine/State.lean ====
section
/-! DEFINITION. The machine's state, plain data: everything 10_state.md lists, and after it the model's own fields for the free
inputs and the redraw event. -/

namespace Sys2Proof.Machine

/-- `RUN_STATE` (10_state.md R34): 1 bit, 0 Running, 1 Faulted. -/
inductive RunState where
  | running
  | faulted
  deriving DecidableEq, Repr

/-- `FAULT_CODE` (10_state.md R34, 60_exceptions.md R180): 3 bits, 0 to 4 in the order below (`FaultCode.bits`). -/
inductive FaultCode where
  | none
  | decodeFailure
  | stackOverflow
  | stackUnderflow
  | memRange
  deriving DecidableEq, Repr

/-- A free input of the machine: the values the outside world has already fixed, oldest first, and how many have been taken.
Once `queued` is empty the next value is Config's free value at `taken` (notes/assumptions/2.md, 3.md). -/
structure Feed (α : Type) where
  queued : List α
  taken : Nat
  deriving DecidableEq, Repr

structure State where
  /-- `V[0..15]` (R20); `v[15]` is `VF` (R21). -/
  v : Vector Byte 16
  /-- `I` (R23). -/
  i : Word
  /-- `PC` (R24): while an instruction executes, its own address. -/
  pc : Word
  /-- `STACK[0..15]` (R27). -/
  stack : Vector Word 16
  /-- `SP` (R28): the number of entries in use, 0..16. -/
  sp : Fin 17
  /-- `DT`, the Delay timer (R29). -/
  dt : Byte
  /-- `ST`, the Sound timer (R30). -/
  st : Byte
  /-- `KEY`, the pending-key latch (R31). -/
  key : Option KeyCode
  /-- `MEM` (R32). -/
  mem : Memory
  /-- `FB` (R33): row `r`, its 64 cells as bits, bit `c` being column `c` counted from the left. -/
  fb : Vector (BitVec 64) 32
  /-- `RUN_STATE` (R34). -/
  runState : RunState
  /-- `FAULT_CODE` (R34). -/
  faultCode : FaultCode
  /-- `FAULT_PC` (R34). -/
  faultPc : Word
  /-- `FAULT_OP` (R34). -/
  faultOp : Word
  /-- `FAULT_ADDR` (R34). -/
  faultAddr : BitVec 17
  /-- The model's own: how many `redraw` events were emitted since reset (44_display.md R163). notes/assumptions/4.md. -/
  redraws : Nat
  /-- The model's own: the key input port, one value per poll (45_keypad_timers.md R170). notes/assumptions/2.md. -/
  keyFeed : Feed (Option KeyCode)
  /-- The model's own: the random source, one byte per RND (42_alu.md R146). notes/assumptions/2.md. -/
  rndFeed : Feed Byte
  /-- The model's own: Delay ticks between a step and the next, one count per step (60_exceptions.md R197).
  notes/assumptions/3.md. -/
  delayFeed : Feed Nat
  /-- The model's own: Sound ticks between a step and the next, one count per step (60_exceptions.md R197).
  notes/assumptions/3.md. -/
  soundFeed : Feed Nat
  deriving DecidableEq, Repr

/-- Reasons a step could stop the model itself. There is none: the four faults of 60_exceptions.md R180 have an entry the spec
describes (R184), so each is a next state, and every other step completes. -/
inductive Fault where
  deriving DecidableEq, Repr

/-- Reasons the model gives an instruction, or an execution, no meaning. -/
inductive Refusal where
  /-- Raised by `exec` for an instruction that has no meaning yet (none is left). Safe. -/
  | notModelled (mnemonic : String)
  /-- Raised by `runActions` for a load that is not between a reset and the first step: such an execution has no meaning
  (70_reset_and_hazards.md R212, 93_implementation_defined.md U12). No step raises it. Safe. notes/assumptions/6.md. -/
  | hostDutyBroken
  deriving DecidableEq, Repr

/-- A feed of which nothing is fixed and nothing was taken: every value is free. -/
def Feed.fresh {α : Type} : Feed α := { queued := [], taken := 0 }

/-- The machine right after reset (10_state.md R38, 70_reset_and_hazards.md R210). -/
def State.reset : State where
  v := Vector.replicate 16 0
  i := 0
  pc := BitVec.ofNat 16 progStart
  stack := Vector.replicate 16 0
  sp := 0
  dt := 0
  st := 0
  key := none
  mem := []
  fb := Vector.replicate 32 0
  runState := .running
  faultCode := .none
  faultPc := 0
  faultOp := 0
  faultAddr := 0
  redraws := 0
  keyFeed := .fresh
  rndFeed := .fresh
  delayFeed := .fresh
  soundFeed := .fresh

end Sys2Proof.Machine
end

