-- ==== Sys2Proof/Machine/Operands.lean ====
section
/-! DEFINITION. Operand forms: general registers, immediates, jump targets, the base-plus-offset data address, font glyph
addresses, decimal digits, sprite bytes. -/

namespace Sys2Proof.Machine

/-- `VF` is register 15 (10_state.md R21). -/
def vf : Reg := 15

/-- Read of `V[r]`. No register is hardwired (10_state.md R20). -/
def State.getV (s : State) (r : Reg) : Byte := s.v[r]

/-- `V[r] <- b`. -/
def State.setV (s : State) (r : Reg) (b : Byte) : State := { s with v := s.v.set r b }

/-- `zext_16(nnn)` (30_encoding.md R82). -/
def zextAddr (nnn : Addr12) : Word := nnn.setWidth 16

/-- `zext_16` of a general register's value. -/
def zextByte (b : Byte) : Word := b.setWidth 16

/-- `zext_8` of a key code (45_keypad_timers.md R172, R174). -/
def zextKey (k : KeyCode) : Byte := k.setWidth 8

/-- The target of `JP V0,nnn`: a 16-bit sum, not masked to 12 bits (41_control_flow.md R114). -/
def State.indexedTarget (s : State) (nnn : Addr12) : Word := zextAddr nnn + zextByte (s.getV 0)

/-- The data address `I + k`, on unbounded integers (20_memory.md R54, R56). -/
def State.dataAddr (s : State) (k : Nat) : Nat := s.i.toNat + k

/-- The address of the glyph for the low nibble of a register's value (43_index_memory.md R152). -/
def glyphAddr (b : Byte) : Word := BitVec.ofNat 16 (fontBase + glyphBytes * (b.toNat % 16))

/-- Hundreds, tens and ones of a register's value, one byte each (43_index_memory.md R153). -/
def bcdDigits (b : Byte) : List Byte :=
  [BitVec.ofNat 8 (b.toNat / 100), BitVec.ofNat 8 (b.toNat / 10 % 10), BitVec.ofNat 8 (b.toNat % 10)]

/-- The bytes `V[0] .. V[x]`, in that order (43_index_memory.md R154). -/
def State.regsUpTo (s : State) (x : Reg) : List Byte := s.v.toList.take (x.val + 1)

/-- `V[i] <- MEM[a + i]` for `i` in 0..x (43_index_memory.md R155). The addresses do not depend on the registers written, so
all the registers are written at once. -/
def State.loadRegsUpTo (s : State) (x : Reg) (a : Nat) : State :=
  { s with v := Vector.ofFn fun r => if r ≤ x then s.mem.read (a + r.val) else s.v[r] }

/-- The sprite of `n` rows at `I` (44_display.md R161). -/
def State.spriteBytes (s : State) (n : Nat) : List Byte := s.mem.readBytes (s.dataAddr 0) n

end Sys2Proof.Machine
end

