-- ==== Sys2Proof/Machine/Flags.lean ====
section
/-! DEFINITION. The results and flags of the ALU (42_alu.md R136 to R142). -/

namespace Sys2Proof.Machine

/-- A flag value as `VF` holds it: 1 or 0, never another value (10_state.md R21). -/
def flagByte (b : Bool) : Byte := if b then 1 else 0

/-- What a flag-setting instruction computes. -/
structure AluResult where
  result : Byte
  flag : Byte
  deriving DecidableEq, Repr

/-- Sum and carry out; there is no carry in (R136). -/
def addWithCarryOut (a b : Byte) : AluResult :=
  { result := BitVec.ofNat 8 (a.toNat + b.toNat), flag := flagByte (decide (255 < a.toNat + b.toNat)) }

/-- Wrapped difference and not-borrow (R137, R139, R142): the flag is 1 when the minuend is not the smaller. -/
def subWithNotBorrow (minuend subtrahend : Byte) : AluResult :=
  { result := BitVec.ofNat 8 (minuend.toNat + 256 - subtrahend.toNat),
    flag := flagByte (decide (subtrahend.toNat ≤ minuend.toNat)) }

/-- Shift right by one, a 0 shifted in, and the bit shifted out (R138). -/
def shiftRightOut (a : Byte) : AluResult :=
  { result := BitVec.ofNat 8 (a.toNat / 2), flag := flagByte (a.getLsbD 0) }

/-- Shift left by one, a 0 shifted in, and the bit shifted out (R140). -/
def shiftLeftOut (a : Byte) : AluResult :=
  { result := BitVec.ofNat 8 (a.toNat * 2), flag := flagByte (a.getLsbD 7) }

/-- The 8-bit sum without a flag (R131). -/
def addWrap (a b : Byte) : Byte := BitVec.ofNat 8 (a.toNat + b.toNat)

/-- The 16-bit sum of ADD I,Vx, without a flag (43_index_memory.md R151). -/
def addIndexWrap (i : Word) (b : Byte) : Word := BitVec.ofNat 16 (i.toNat + b.toNat)

/-- `V[x]` is written first and `VF` last, so that for `x = F` the flag is what remains (R141). -/
def State.writeResultThenFlag (s : State) (x : Reg) (r : AluResult) : State := (s.setV x r.result).setV vf r.flag

end Sys2Proof.Machine
end

