-- ==== Sys2Proof/Machine/Ops.lean ====
section
/-! DEFINITION. The operations the meanings share: control-flow classes, raising a fault, the range check, the call stack, the
free inputs, the key latch, the redraw event, fetching a word. -/

namespace Sys2Proof.Machine

/-! ### Control-flow classes (40_step_cycle.md R103) -/

/-- How an instruction's rule ends. -/
inductive Control where
  | next
  | skip
  | jump (a : Nat)
  deriving DecidableEq, Repr

/-- The PC after a step, from the instruction's own address and its class (R103). -/
def Control.newPc (pc : Word) : Control → Word
  | .next => BitVec.ofNat 16 (pc.toNat + 2)
  | .skip => BitVec.ofNat 16 (pc.toNat + 4)
  | .jump a => BitVec.ofNat 16 a

/-- `PC <- new_pc(cls)`, the end of a step (R101). -/
def State.finish (s : State) (c : Control) : State := { s with pc := c.newPc s.pc }

/-- The class of a conditional skip (R103). -/
def skipIf (b : Bool) : Control := if b then .skip else .next

/-! ### Faults (60_exceptions.md R180, R184) -/

/-- The number `FAULT_CODE` holds (R180). -/
def FaultCode.bits : FaultCode → BitVec 3
  | .none => 0
  | .decodeFailure => 1
  | .stackOverflow => 2
  | .stackUnderflow => 3
  | .memRange => 4

/-- `raise F(info)`: the engine stops, the five fault registers are written, every other element keeps its value (R184).
`op` is the instruction word, `addr` the address of a MemRange and 0 for the other faults. -/
def State.raise (s : State) (f : FaultCode) (op : Word) (addr : Nat) : State :=
  { s with runState := .faulted, faultCode := f, faultPc := s.pc, faultOp := op, faultAddr := BitVec.ofNat 17 addr }

/-- MemRange when the `n` bytes at `a` are not all inside memory, else `t`: the whole range is checked before any effect
(20_memory.md R54, 60_exceptions.md R185). -/
def State.ifInRange (s : State) (a n : Nat) (op : Word) (t : State) : State :=
  match firstOutOfRange a n with
  | some bad => s.raise .memRange op bad
  | none => t

/-! ### The call stack (10_state.md R27, R28) -/

/-- `STACK[SP-1]`, read only when `SP > 0`. -/
def State.stackTop (s : State) : Word := s.stack[s.sp.val - 1]'(by have := s.sp.isLt; omega)

/-- `SP <- SP - 1`; the popped entry keeps its value. -/
def State.popStack (s : State) : State := { s with sp := ⟨s.sp.val - 1, by have := s.sp.isLt; omega⟩ }

/-- `STACK[SP] <- w; SP <- SP + 1`, used only when `SP < 16`; on a full stack it changes nothing. -/
def State.pushStack (s : State) (w : Word) : State :=
  if h : s.sp.val < 16 then
    { s with stack := s.stack.set s.sp.val w h, sp := ⟨s.sp.val + 1, by omega⟩ }
  else s

/-- The address of the instruction after this one, which CALL pushes (41_control_flow.md R112). -/
def State.returnAddr (s : State) : Word := Control.newPc s.pc .next

/-! ### Free inputs (40_step_cycle.md R102) -/

/-- The next value of a free input. -/
def Feed.peek {α : Type} (free : Nat → α) (f : Feed α) : α :=
  match f.queued with
  | a :: _ => a
  | [] => free f.taken

/-- The feed after its next value is taken. -/
def Feed.advance {α : Type} (f : Feed α) : Feed α := { queued := f.queued.tail, taken := f.taken + 1 }

/-- `key_in` of this step (45_keypad_timers.md R170). -/
def State.keyIn (s : State) : Option KeyCode := s.keyFeed.peek Config.keyIn

/-- `rnd_in` of this step (42_alu.md R146). -/
def State.rndIn (s : State) : Byte := s.rndFeed.peek Config.rndIn

/-- The random byte of this step is taken. -/
def State.takeRnd (s : State) : State := { s with rndFeed := s.rndFeed.advance }

/-! ### The key latch (45_keypad_timers.md R170, R171) -/

/-- `refresh()`: one poll; a polled key replaces the latched one, no key leaves it (R171). -/
def State.refresh (s : State) : State :=
  { s with
    keyFeed := s.keyFeed.advance
    key := match s.keyIn with
      | some k => some k
      | none => s.key }

/-- The latch holds a key whose zero-extended code is the whole of `V[x]` (R172). -/
def State.keyMatches (s : State) (x : Reg) : Bool :=
  match s.key with
  | some k => zextKey k == s.getV x
  | none => false

/-- `KEY <- None` (R172, R173). -/
def State.clearKey (s : State) : State := { s with key := none }

/-- What SKP and SKNP share: refresh, test, and clear the latch on a match. `skipOn` is the test result that skips. -/
def State.keySkip (s : State) (x : Reg) (skipOn : Bool) : State :=
  let t := s.refresh
  if t.keyMatches x then t.clearKey.finish (skipIf skipOn) else t.finish (skipIf !skipOn)

/-! ### The redraw event (44_display.md R163) -/

/-- `emit redraw`. -/
def State.emitRedraw (s : State) : State := { s with redraws := s.redraws + 1 }

/-! ### Fetch (40_step_cycle.md R101, 20_memory.md R51) -/

/-- `MemRead(a, 2)`: the byte at the lower address is the high one. -/
def Memory.readWord (m : Memory) (a : Nat) : Word := wordOfBytes (m.read a) (m.read (a + 1))

/-- The word at PC. -/
def State.fetch (s : State) : Word := s.mem.readWord s.pc.toNat

/-- `halted`: a function of PC, not a stored bit (10_state.md R26). -/
def State.atHaltLimit (s : State) : Bool := decide (haltLimit ≤ s.pc.toNat)

/-- A word's bytes placed where the next step fetches: at PC, or at the program start when PC is at or past the halt limit,
the engine running. notes/assumptions/8.md. -/
def State.placeAtFetch (s : State) (bytes : List Byte) : State :=
  let a := if s.atHaltLimit then progStart else s.pc.toNat
  { s with mem := s.mem.writeBytes a bytes, pc := BitVec.ofNat 16 a, runState := .running }

end Sys2Proof.Machine
end

