-- ==== Sys2Proof/Machine/Alu.lean ====
section
/-! DEFINITION. Register and ALU instructions (42_alu.md). All are of class next and none can fault. -/

namespace Sys2Proof.Machine

/-- LD Vx,kk (R130). -/
def execLdVxKk (x : Reg) (kk : Byte) (s : State) : Host.Outcome State Fault Refusal :=
  .next ((s.setV x kk).finish .next)

/-- ADD Vx,kk (R131): no flag. -/
def execAddVxKk (x : Reg) (kk : Byte) (s : State) : Host.Outcome State Fault Refusal :=
  .next ((s.setV x (addWrap (s.getV x) kk)).finish .next)

/-- LD Vx,Vy (R132). -/
def execLdVxVy (x y : Reg) (s : State) : Host.Outcome State Fault Refusal :=
  .next ((s.setV x (s.getV y)).finish .next)

/-- OR Vx,Vy (R133): VF unchanged. -/
def execOrVxVy (x y : Reg) (s : State) : Host.Outcome State Fault Refusal :=
  .next ((s.setV x (s.getV x ||| s.getV y)).finish .next)

/-- AND Vx,Vy (R134): VF unchanged. -/
def execAndVxVy (x y : Reg) (s : State) : Host.Outcome State Fault Refusal :=
  .next ((s.setV x (s.getV x &&& s.getV y)).finish .next)

/-- XOR Vx,Vy (R135): VF unchanged. -/
def execXorVxVy (x y : Reg) (s : State) : Host.Outcome State Fault Refusal :=
  .next ((s.setV x (s.getV x ^^^ s.getV y)).finish .next)

/-- ADD Vx,Vy (R136). -/
def execAddVxVy (x y : Reg) (s : State) : Host.Outcome State Fault Refusal :=
  .next ((s.writeResultThenFlag x (addWithCarryOut (s.getV x) (s.getV y))).finish .next)

/-- SUB Vx,Vy (R137): Vx - Vy. -/
def execSubVxVy (x y : Reg) (s : State) : Host.Outcome State Fault Refusal :=
  .next ((s.writeResultThenFlag x (subWithNotBorrow (s.getV x) (s.getV y))).finish .next)

/-- SHR Vx (R138): `V[y]` is not read. -/
def execShrVx (x _y : Reg) (s : State) : Host.Outcome State Fault Refusal :=
  .next ((s.writeResultThenFlag x (shiftRightOut (s.getV x))).finish .next)

/-- SUBN Vx,Vy (R139): Vy - Vx. -/
def execSubnVxVy (x y : Reg) (s : State) : Host.Outcome State Fault Refusal :=
  .next ((s.writeResultThenFlag x (subWithNotBorrow (s.getV y) (s.getV x))).finish .next)

/-- SHL Vx (R140): `V[y]` is not read. -/
def execShlVx (x _y : Reg) (s : State) : Host.Outcome State Fault Refusal :=
  .next ((s.writeResultThenFlag x (shiftLeftOut (s.getV x))).finish .next)

/-- RND Vx,kk (R146): the free byte of this step under the mask. -/
def execRndVxKk (x : Reg) (kk : Byte) (s : State) : Host.Outcome State Fault Refusal :=
  .next ((s.takeRnd.setV x (s.rndIn &&& kk)).finish .next)

end Sys2Proof.Machine
end

