-- ==== Sys2Proof/Machine/ControlFlow.lean ====
section
/-! DEFINITION. Calls, returns, jumps and skips (41_control_flow.md). -/

namespace Sys2Proof.Machine

/-- RET (R111): StackUnderflow on an empty stack, else pop and jump. -/
def execRet (s : State) : Host.Outcome State Fault Refusal :=
  .next (if s.sp.val = 0 then s.raise .stackUnderflow (encode .ret) 0
    else s.popStack.finish (.jump s.stackTop.toNat))

/-- CALL nnn (R112): StackOverflow on a full stack, else push `PC + 2` and jump. -/
def execCall (nnn : Addr12) (s : State) : Host.Outcome State Fault Refusal :=
  .next (if s.sp.val = 16 then s.raise .stackOverflow (encode (.call nnn)) 0
    else (s.pushStack s.returnAddr).finish (.jump (zextAddr nnn).toNat))

/-- JP nnn (R113). -/
def execJp (nnn : Addr12) (s : State) : Host.Outcome State Fault Refusal :=
  .next (s.finish (.jump (zextAddr nnn).toNat))

/-- JP V0,nnn (R114). -/
def execJpV0Nnn (nnn : Addr12) (s : State) : Host.Outcome State Fault Refusal :=
  .next (s.finish (.jump (s.indexedTarget nnn).toNat))

/-- SE Vx,kk (R115). -/
def execSeVxKk (x : Reg) (kk : Byte) (s : State) : Host.Outcome State Fault Refusal :=
  .next (s.finish (skipIf (s.getV x == kk)))

/-- SNE Vx,kk (R116). -/
def execSneVxKk (x : Reg) (kk : Byte) (s : State) : Host.Outcome State Fault Refusal :=
  .next (s.finish (skipIf (s.getV x != kk)))

/-- SE Vx,Vy (R117). -/
def execSeVxVy (x y : Reg) (s : State) : Host.Outcome State Fault Refusal :=
  .next (s.finish (skipIf (s.getV x == s.getV y)))

/-- SNE Vx,Vy (R118). -/
def execSneVxVy (x y : Reg) (s : State) : Host.Outcome State Fault Refusal :=
  .next (s.finish (skipIf (s.getV x != s.getV y)))

end Sys2Proof.Machine
end

