-- ==== Sys2Proof/Machine/Blitter.lean ====
section
/-! DEFINITION. The frame buffer and the XOR sprite blitter (10_state.md R33, 44_display.md R162). -/

namespace Sys2Proof.Machine

/-- `FB`: 32 rows of 64 cells. -/
abbrev FrameBuffer := Vector (BitVec 64) 32

/-- The cell `FB[r][c]`; no cell outside the 64x32 display is set. -/
def cell (fb : FrameBuffer) (r c : Nat) : Bool := if h : r < 32 then fb[r].getLsbD c else false

/-- `FB[r][c] <- FB[r][c] xor 1`, for a cell of the display. -/
def toggleCell (fb : FrameBuffer) (r c : Nat) : FrameBuffer :=
  if h : r < 32 then fb.set r (fb[r] ^^^ BitVec.twoPow 64 c) else fb

/-- All cells unset (R160). -/
def blankFrame : FrameBuffer := Vector.replicate 32 0

/-- A draw in progress: the frame buffer and the collision so far. -/
structure Blit where
  fb : FrameBuffer
  coll : Bool
  deriving DecidableEq, Repr

/-- Sprite row `iy`, column `ix` of a draw at `(px, py)`, its row byte being `b`: the body of R162's loops. Sums do not wrap,
and a pixel outside the display is dropped. -/
def blitPixel (px py iy : Nat) (b : Byte) (d : Blit) (ix : Nat) : Blit :=
  if b.getLsbD (7 - ix) ∧ px + ix < 64 ∧ py + iy < 32 then
    { fb := toggleCell d.fb (py + iy) (px + ix), coll := d.coll || cell d.fb (py + iy) (px + ix) }
  else d

/-- One sprite row, leftmost pixel first. -/
def blitRow (px py iy : Nat) (b : Byte) (d : Blit) : Blit := (List.range 8).foldl (blitPixel px py iy b) d

/-- The sprite rows from row `iy` on, top first. -/
def blitRows (px py : Nat) (iy : Nat) : List Byte → Blit → Blit
  | [], d => d
  | b :: bs, d => blitRows px py (iy + 1) bs (blitRow px py iy b d)

/-- `draw(px, py, S) -> coll` (R162). -/
def draw (fb : FrameBuffer) (px py : Nat) (sprite : List Byte) : Blit := blitRows px py 0 sprite { fb := fb, coll := false }

end Sys2Proof.Machine
end

