-- ==== Sys2Proof/Machine/Display.lean ====
section
/-! DEFINITION. CLS and DRW (44_display.md). -/

namespace Sys2Proof.Machine

/-- CLS (R160). -/
def execCls (s : State) : Host.Outcome State Fault Refusal :=
  .next ((State.emitRedraw { s with fb := blankFrame }).finish .next)

/-- The effect of a draw: FB, VF and the redraw event (R161). The position is sampled before VF is written. -/
def State.drawSprite (s : State) (px py : Byte) (sprite : List Byte) : State :=
  let d := draw s.fb px.toNat py.toNat sprite
  (State.setV { s with fb := d.fb } vf (flagByte d.coll)).emitRedraw

/-- DRW Vx,Vy,n (R161). -/
def execDrwVxVyN (x y : Reg) (n : Nat) (s : State) : Host.Outcome State Fault Refusal :=
  .next (s.ifInRange (s.dataAddr 0) n (encode (.drwVxVyN x y n))
    ((s.drawSprite (s.getV x) (s.getV y) (s.spriteBytes n)).finish .next))

end Sys2Proof.Machine
end

