-- ==== Sys2Proof/Machine/IndexMemory.lean ====
section
/-! DEFINITION. The index register, loads and stores (43_index_memory.md). -/

namespace Sys2Proof.Machine

/-- LD I,nnn (R150). -/
def execLdINnn (nnn : Addr12) (s : State) : Host.Outcome State Fault Refusal :=
  .next (State.finish { s with i := zextAddr nnn } .next)

/-- ADD I,Vx (R151): 16-bit wrap, no flag. -/
def execAddIVx (x : Reg) (s : State) : Host.Outcome State Fault Refusal :=
  .next (State.finish { s with i := addIndexWrap s.i (s.getV x) } .next)

/-- LD F,Vx (R152). -/
def execLdFVx (x : Reg) (s : State) : Host.Outcome State Fault Refusal :=
  .next (State.finish { s with i := glyphAddr (s.getV x) } .next)

/-- Bytes stored at `I`, `I+1`, ..., or MemRange and no byte written (20_memory.md R54). -/
def State.storeAtIndex (s : State) (op : Word) (bytes : List Byte) : State :=
  s.ifInRange (s.dataAddr 0) bytes.length op
    (State.finish { s with mem := s.mem.writeBytes (s.dataAddr 0) bytes } .next)

/-- LD B,Vx (R153). -/
def execLdBVx (x : Reg) (s : State) : Host.Outcome State Fault Refusal :=
  .next (s.storeAtIndex (encode (.ldBVx x)) (bcdDigits (s.getV x)))

/-- LD [I],Vx (R154): I unchanged. -/
def execLdMemVx (x : Reg) (s : State) : Host.Outcome State Fault Refusal :=
  .next (s.storeAtIndex (encode (.ldMemVx x)) (s.regsUpTo x))

/-- LD Vx,[I] (R155): I unchanged. -/
def execLdVxMem (x : Reg) (s : State) : Host.Outcome State Fault Refusal :=
  .next (s.ifInRange (s.dataAddr 0) (x.val + 1) (encode (.ldVxMem x))
    ((s.loadRegsUpTo x (s.dataAddr 0)).finish .next))

end Sys2Proof.Machine
end

