-- ==== Sys2Proof/Machine/KeypadTimers.lean ====
section
/-! DEFINITION. Key skips, the blocking key wait, and the timer moves (45_keypad_timers.md). None can fault. -/

namespace Sys2Proof.Machine

/-- SKP Vx (R172). -/
def execSkpVx (x : Reg) (s : State) : Host.Outcome State Fault Refusal := .next (s.keySkip x true)

/-- SKNP Vx (R173). -/
def execSknpVx (x : Reg) (s : State) : Host.Outcome State Fault Refusal := .next (s.keySkip x false)

/-- What LD Vx,K does once the latch is refreshed: take the latched key, which stays latched, or re-issue (R174). -/
def State.takeKeyOrWait (s : State) (x : Reg) : State :=
  match s.key with
  | some k => (s.setV x (zextKey k)).finish .next
  | none => s.finish (.jump s.pc.toNat)

/-- LD Vx,K (R174). -/
def execLdVxK (x : Reg) (s : State) : Host.Outcome State Fault Refusal := .next (s.refresh.takeKeyOrWait x)

/-- LD Vx,DT (R175). -/
def execLdVxDt (x : Reg) (s : State) : Host.Outcome State Fault Refusal :=
  .next ((s.setV x s.dt).finish .next)

/-- LD DT,Vx (R176). -/
def execLdDtVx (x : Reg) (s : State) : Host.Outcome State Fault Refusal :=
  .next (State.finish { s with dt := s.getV x } .next)

/-- LD ST,Vx (R177). -/
def execLdStVx (x : Reg) (s : State) : Host.Outcome State Fault Refusal :=
  .next (State.finish { s with st := s.getV x } .next)

end Sys2Proof.Machine
end

