-- ==== Sys2Proof/Machine/Timers.lean ====
section
/-! DEFINITION. The two timer agents (60_exceptions.md R195 to R198): one tick, and the ticks that fall between a step and the
next. -/

namespace Sys2Proof.Machine

/-- `if T != 0 then T <- T - 1` (R195, R196). -/
def tickTimer (t : Byte) : Byte := if t = 0 then 0 else BitVec.ofNat 8 (t.toNat - 1)

/-- `tick_DT`, the Delay timer agent's one action (R195). -/
def State.tickDelay (s : State) : State := { s with dt := tickTimer s.dt }

/-- `tick_ST`, the Sound timer agent's one action (R196). -/
def State.tickSound (s : State) : State := { s with st := tickTimer s.st }

/-- `n` ticks of one timer at once. -/
def tickTimes (n : Nat) (t : Byte) : Byte := if t = 0 then 0 else BitVec.ofNat 8 (t.toNat - n)

/-- Where a tick schedule stands after `n` steps: the number of the burst that comes next, and how many steps without a tick
still come before it. -/
def tickCursor (pause : Nat → Nat) : Nat → Nat × Nat
  | 0 => (0, pause 0)
  | n + 1 =>
    match tickCursor pause n with
    | (k, 0) => (k + 1, pause (k + 1))
    | (k, w + 1) => (k, w)

/-- How many ticks of one timer fall between the n-th step and the step after it, under a schedule of pauses and bursts
(60_exceptions.md R197). Every schedule is fair, and every fair one is some schedule of this form
(Sys2Proof/Laws/Timers.lean). -/
def freeTicks (pause burst : Nat → Nat) (n : Nat) : Nat :=
  match tickCursor pause n with
  | (k, 0) => burst k + 1
  | (_, _ + 1) => 0

/-- Weak fairness of a timer agent, `ticks n` being its ticks after the n-th step: it ticks infinitely often in an infinite
execution (60_exceptions.md R197, 70_reset_and_hazards.md R216, 92_eei_decisions.md D20). -/
def FairTicks (ticks : Nat → Nat) : Prop := ∀ n, ∃ m, n ≤ m ∧ ticks m ≠ 0

/-- How many Delay ticks fall before the next step. -/
def State.delayTicksDue (s : State) : Nat := s.delayFeed.peek (freeTicks Config.delayPause Config.delayBurst)

/-- How many Sound ticks fall before the next step. -/
def State.soundTicksDue (s : State) : Nat := s.soundFeed.peek (freeTicks Config.soundPause Config.soundBurst)

/-- The timer ticks between a step and the next: a free number of each, zero included, and each agent ticks infinitely
often (R197). They go on whether the engine is running, waiting, halted or faulted. -/
def State.ticksBetweenSteps (s : State) : State :=
  { s with
    dt := tickTimes s.delayTicksDue s.dt
    st := tickTimes s.soundTicksDue s.st
    delayFeed := s.delayFeed.advance
    soundFeed := s.soundFeed.advance }

end Sys2Proof.Machine
end

