-- ==== Sys2Proof/Machine/Engine.lean ====
section
/-! DEFINITION. The engine's step (40_step_cycle.md R101) and the same step followed by the timer ticks before the next one. -/

namespace Sys2Proof.Machine

/-- Fetch, decode and execute one instruction of a running engine (R101). -/
def State.executeFetched (s : State) : Host.Outcome State Fault Refusal :=
  match decode s.fetch with
  | .ok i => exec i s
  | .error _ => .next (s.raise .decodeFailure s.fetch 0)

/-- `step` (R101): a faulted engine does nothing (R105), then a halted one does nothing (R104), then fetch, decode, execute. -/
def engineStep (s : State) : Host.Outcome State Fault Refusal :=
  match s.runState with
  | .faulted => .next s
  | .running => if s.atHaltLimit then .next s else s.executeFetched

/-- What an action leaves, with `f` done to the state after it. -/
def onNext (f : State → State) : Host.Outcome State Fault Refusal → Host.Outcome State Fault Refusal
  | .next t => .next (f t)
  | .fault r => .fault r
  | .refused r => .refused r

/-- One engine step and the timer ticks that fall before the next step (60_exceptions.md R197). notes/assumptions/3.md. -/
def stepThenTicks (s : State) : Host.Outcome State Fault Refusal := onNext State.ticksBetweenSteps (engineStep s)

end Sys2Proof.Machine
end

