-- ==== Sys2Proof/Machine/Step.lean ====
section
/-! DEFINITION. The machine's step, and placing a word where the step fetches. -/

namespace Sys2Proof.Machine

/-- One step of the machine: the engine's step, then the timer ticks before the next one. -/
def step (s : State) : Host.Outcome State Fault Refusal := stepThenTicks s

/-- The state with a row's word stored where the next step fetches (20_memory.md R62's load stands behind it, at one word).
notes/assumptions/8.md. -/
def State.withFetchWord (s : State) (nbits w : Nat) : State := s.placeAtFetch (tableWordBytes nbits w)

end Sys2Proof.Machine
end

