-- ==== Sys2Proof/Machine/HostPort.lean ====
section
/-! DEFINITION. What the host does beside issuing steps: reset, load, and reading the output ports (70_reset_and_hazards.md
R210 to R212, 20_memory.md R62, 60_exceptions.md R199). -/

namespace Sys2Proof.Machine

/-- The status a load returns to the host (R62). -/
inductive LoadStatus where
  | ok
  | loadOverflow
  deriving DecidableEq, Repr

/-- Memory after reset: FONT, and `fill` from address 80 on, its bytes in order. Where `fill` ends, `memFill` goes on, so that
every MEM_FILL the open parameter can take is some `fill` (R32, R210, 92_eei_decisions.md D4, 93_implementation_defined.md
U7). notes/assumptions/1.md. -/
def memAfterReset (fill : List Byte) : Memory :=
  Memory.writeBytes [] font.length (fill.take (memSize - font.length))

/-- `reset` (R210): every state element gets its reset value, under any MEM_FILL. What the outside world will deliver is no
state element, so the four feeds go on (notes/assumptions/5.md). -/
def State.resetRequest (s : State) (fill : List Byte) : State :=
  { State.reset with
    mem := memAfterReset fill
    keyFeed := s.keyFeed, rndFeed := s.rndFeed, delayFeed := s.delayFeed, soundFeed := s.soundFeed }

/-- `load(byte_stream)` (R62): an over-long stream changes nothing. The host issues it only between reset and the first step
(R212; `runActions` refuses any other load, notes/assumptions/6.md). -/
def State.load (s : State) (stream : List Byte) : LoadStatus × State :=
  if memSize - progStart < stream.length then (.loadOverflow, s)
  else (.ok, { s with mem := s.mem.writeBytes progStart stream })

/-- `sound_on` (R198). -/
def State.soundOn (s : State) : Bool := decide (s.st ≠ 0)

/-- The output `faulted` (R184). -/
def State.isFaulted (s : State) : Bool := decide (s.runState = .faulted)

/-- The output `halted`: at the halt limit and not faulted (R199). -/
def State.isHalted (s : State) : Bool := s.atHaltLimit && !s.isFaulted

end Sys2Proof.Machine
end

