-- ==== Sys2Proof/Machine/Agents.lean ====
section
/-! DEFINITION. The four agents' atomic actions, and executions as sequences of whole actions (40_step_cycle.md R100). -/

namespace Sys2Proof.Machine

/-- One atomic action (R100). -/
inductive Action where
  /-- The engine's step, issued by the host. -/
  | engine
  /-- The Delay timer agent. -/
  | delayTick
  /-- The Sound timer agent. -/
  | soundTick
  /-- The host: reset, under a memory fill. -/
  | reset (fill : List Byte)
  /-- The host: load. -/
  | load (stream : List Byte)
  deriving DecidableEq, Repr

/-- What one action does. DESIGN CHOICE: after a load that failed with LoadOverflow the engine's steps run on with memory as
after reset, where R211 leaves what follows to the host (notes/assumptions/13.md). -/
def act (a : Action) (s : State) : Host.Outcome State Fault Refusal :=
  match a with
  | .engine => engineStep s
  | .delayTick => .next s.tickDelay
  | .soundTick => .next s.tickSound
  | .reset fill => .next (s.resetRequest fill)
  | .load stream => .next (s.load stream).2

/-- A load may come after this action: at most one, between a reset and the first step (70_reset_and_hazards.md R211,
R212). DESIGN CHOICE: a load that failed with LoadOverflow is that one load, and a second one is refused, where R211 does not
say (notes/assumptions/13.md). -/
def mayLoadAfter (mayLoad : Bool) : Action → Bool
  | .engine => false
  | .delayTick => mayLoad
  | .soundTick => mayLoad
  | .reset _ => true
  | .load _ => false

/-- The host may issue this action: a load only where one may come. -/
def hostMay (mayLoad : Bool) : Action → Bool
  | .load _ => mayLoad
  | .engine => true
  | .delayTick => true
  | .soundTick => true
  | .reset _ => true

/-- An execution: actions one after another, never overlapping. One in which the host breaks its duty has no meaning
(R212, 93_implementation_defined.md U12, notes/assumptions/6.md). -/
def runActions (mayLoad : Bool) : List Action → State → Host.Outcome State Fault Refusal
  | [], s => .next s
  | a :: rest, s =>
    if hostMay mayLoad a then
      match act a s with
      | .next t => runActions (mayLoadAfter mayLoad a) rest t
      | .fault r => .fault r
      | .refused r => .refused r
    else .refused .hostDutyBroken

end Sys2Proof.Machine
end

