-- ==== Sys2Proof/Safety.lean ====
section
/-! DEFINITION. What a run is and how it ends (40_step_cycle.md R106), and the invariant of every run, in the terms claims
use. -/

namespace Sys2Proof.Safety

open Sys2Proof.Machine

/-- The run ended normally: running, and PC at or past the halt limit (R106). -/
def EndedNormally (s : State) : Prop := s.runState = .running ∧ haltLimit ≤ s.pc.toNat

/-- The run ended in a fault (R106). -/
def EndedInFault (s : State) : Prop := s.runState = .faulted

/-- `t` is the state `n` steps after `s`. -/
def RunsTo (n : Nat) (s t : State) : Prop := Sys2Proof.core.run n s = .next t

/-- No run of any length from `s` ends in a fault. -/
def NeverFaults (s : State) : Prop := ∀ n t, RunsTo n s t → ¬ EndedInFault t

/-- What holds of every state a run reaches. -/
structure Inv (s : State) : Prop where
  /-- The memory list keeps its canonical form. -/
  memCanonical : s.mem.wf
  /-- The largest PC any jump can make (10_state.md R25). -/
  pcBound : s.pc.toNat ≤ 0x10FE
  /-- A stack entry is the address after a CALL that ran below the halt limit (10_state.md R27). -/
  stackBound : ∀ j : Fin 16, s.stack[j].toNat ≤ 0x0FFF
  /-- Only `raise` writes the fault registers (10_state.md R34). -/
  runningClear : s.runState = .running →
    s.faultCode = .none ∧ s.faultPc = 0 ∧ s.faultOp = 0 ∧ s.faultAddr = 0
  /-- The fault registers describe the instruction at PC that faulted (60_exceptions.md R180, R184). -/
  faultedRecord : s.runState = .faulted →
    s.faultCode ≠ .none ∧ s.faultPc = s.pc ∧ s.faultOp = s.fetch ∧ s.pc.toNat < haltLimit ∧
    (s.faultCode = .memRange → s.faultAddr.toNat = max s.i.toNat memSize) ∧
    (s.faultCode ≠ .memRange → s.faultAddr = 0)

end Sys2Proof.Safety
end

