-- ==== Sys2Proof/Certificates/Slice0/Obligations.lean ====
section
/-! DEFINITION. The statements. Each docstring names the rules it formalises. Numbers are written out from the spec, not through
the model's own parameters, wherever the spec gives a number. -/

namespace Sys2Proof.Claims

open Sys2Proof.Machine

/-- A register number as the 4 bits of its field. -/
abbrev nib (r : Reg) : BitVec 4 := BitVec.ofFin r

/-- Every byte of memory reads as before. -/
def SameMemory (s t : State) : Prop := ∀ a, t.mem.read a = s.mem.read a

/-- Class next: `PC <- (PC + 2) mod 2^16` (R103). -/
def PcNext (s t : State) : Prop := t.pc.toNat = (s.pc.toNat + 2) % 65536

/-- Class skip: `PC <- (PC + 4) mod 2^16` (R103). -/
def PcSkip (s t : State) : Prop := t.pc.toNat = (s.pc.toNat + 4) % 65536

/-- Register `x` gets `b`, class next, and nothing else changes: no other register, no flag, no memory, no other field. -/
def OnlyRegister (s t : State) (x : Reg) (b : Byte) : Prop :=
  t.getV x = b ∧ (∀ r, r ≠ x → t.getV r = s.getV r) ∧ PcNext s t ∧ SameMemory s t ∧
  t = { s with v := t.v, pc := t.pc }

/-- Register `x` gets `result` and VF gets `flag`, VF written last, class next, and nothing else changes. -/
def OnlyRegisterAndFlag (s t : State) (x : Reg) (result flag : Nat) : Prop :=
  (t.getV 15).toNat = flag ∧ (x ≠ 15 → (t.getV x).toNat = result) ∧
  (∀ r, r ≠ x → r ≠ 15 → t.getV r = s.getV r) ∧ PcNext s t ∧ SameMemory s t ∧
  t = { s with v := t.v, pc := t.pc }

/-- `PC` becomes `a` and nothing else changes. -/
def OnlyPc (s t : State) (a : Nat) : Prop := t.pc.toNat = a ∧ SameMemory s t ∧ t = { s with pc := t.pc }

/-- `t` is `s` after `raise F(info)` (R184): the five fault registers, and nothing else. -/
def Raised (s t : State) (f : FaultCode) (op : Word) (addr : Nat) : Prop :=
  t.runState = .faulted ∧ t.faultCode = f ∧ t.faultPc = s.pc ∧ t.faultOp = op ∧ t.faultAddr.toNat = addr ∧
  SameMemory s t ∧
  t = { s with runState := t.runState, faultCode := t.faultCode, faultPc := t.faultPc, faultOp := t.faultOp,
               faultAddr := t.faultAddr }

/-- The latch after `refresh()` (R171): the polled key if there is one, else the latched one. -/
def latched (s : State) : Option KeyCode := s.keyIn.or s.key

/-- The latch holds a key whose code is the whole 8-bit value of `V[x]` (R172). -/
def KeyMatch (s : State) (x : Reg) : Prop := ∃ k, latched s = some k ∧ k.toNat = (s.getV x).toNat

/-- The display cell (r, c) lies under a set bit of a sprite drawn at (px, py): most significant bit leftmost, no wrap of
any kind (R162). -/
def spriteCell (px py : Nat) (sprite : List Byte) (r c : Nat) : Bool :=
  decide (px ≤ c ∧ c < px + 8 ∧ py ≤ r ∧ r < py + sprite.length) && (sprite.getD (r - py) 0).getLsbD (7 - (c - px))

/-- The 16 glyphs of R37's table. -/
def glyphTable : List (List Byte) :=
  [[0xF0, 0x90, 0x90, 0x90, 0xF0], [0x20, 0x60, 0x20, 0x20, 0x70], [0xF0, 0x10, 0xF0, 0x80, 0xF0],
   [0xF0, 0x10, 0xF0, 0x10, 0xF0], [0x90, 0x90, 0xF0, 0x10, 0x10], [0xF0, 0x80, 0xF0, 0x10, 0xF0],
   [0xF0, 0x80, 0xF0, 0x90, 0xF0], [0xF0, 0x10, 0x20, 0x40, 0x40], [0xF0, 0x90, 0xF0, 0x90, 0xF0],
   [0xF0, 0x90, 0xF0, 0x10, 0xF0], [0xF0, 0x90, 0xF0, 0x90, 0x90], [0xE0, 0x90, 0xE0, 0x90, 0xE0],
   [0xF0, 0x80, 0x80, 0x80, 0xF0], [0xE0, 0x90, 0x90, 0x90, 0xE0], [0xF0, 0x80, 0xF0, 0x80, 0xF0],
   [0xF0, 0x80, 0xF0, 0x80, 0x80]]

/-- R84's table, rows 1 to 34 in order: (mask, match). -/
def tableRows : List (Word × Word) :=
  [(0xFFFF, 0x00E0), (0xFFFF, 0x00EE), (0xF000, 0x1000), (0xF000, 0x2000), (0xF000, 0x3000), (0xF000, 0x4000),
   (0xF00F, 0x5000), (0xF000, 0x6000), (0xF000, 0x7000), (0xF00F, 0x8000), (0xF00F, 0x8001), (0xF00F, 0x8002)] ++
  [(0xF00F, 0x8003), (0xF00F, 0x8004), (0xF00F, 0x8005), (0xF00F, 0x8006), (0xF00F, 0x8007), (0xF00F, 0x800E),
   (0xF00F, 0x9000), (0xF000, 0xA000), (0xF000, 0xB000), (0xF000, 0xC000), (0xF000, 0xD000)] ++
  [(0xF0FF, 0xE09E), (0xF0FF, 0xE0A1), (0xF0FF, 0xF007), (0xF0FF, 0xF00A), (0xF0FF, 0xF015), (0xF0FF, 0xF018),
   (0xF0FF, 0xF01E), (0xF0FF, 0xF029), (0xF0FF, 0xF033), (0xF0FF, 0xF055), (0xF0FF, 0xF065)]

/-- The number of an instruction's row in R84's table, counted from 0. -/
def rowOf : Instr → Nat
  | .cls => 0 | .ret => 1 | .jp _ => 2 | .call _ => 3 | .seVxKk _ _ => 4 | .sneVxKk _ _ => 5 | .seVxVy _ _ => 6
  | .ldVxKk _ _ => 7 | .addVxKk _ _ => 8 | .ldVxVy _ _ => 9 | .orVxVy _ _ => 10 | .andVxVy _ _ => 11
  | .xorVxVy _ _ => 12 | .addVxVy _ _ => 13 | .subVxVy _ _ => 14 | .shrVx _ _ => 15 | .subnVxVy _ _ => 16
  | .shlVx _ _ => 17 | .sneVxVy _ _ => 18 | .ldINnn _ => 19 | .jpV0Nnn _ => 20 | .rndVxKk _ _ => 21
  | .drwVxVyN _ _ _ => 22 | .skpVx _ => 23 | .sknpVx _ => 24 | .ldVxDt _ => 25 | .ldVxK _ => 26 | .ldDtVx _ => 27
  | .ldStVx _ => 28 | .addIVx _ => 29 | .ldFVx _ => 30 | .ldBVx _ => 31 | .ldMemVx _ => 32 | .ldVxMem _ => 33

/-- The registers an instruction reads (R22). The shifts do not read `V[y]`. -/
def readsReg : Instr → Reg → Bool
  | .cls, _ | .ret, _ | .jp _, _ | .call _, _ | .ldINnn _, _ => false
  | .jpV0Nnn _, r => r == 0
  | .seVxKk x _, r | .sneVxKk x _, r | .addVxKk x _, r | .shrVx x _, r | .shlVx x _, r => r == x
  | .ldVxKk _ _, _ | .rndVxKk _ _, _ | .ldVxDt _, _ | .ldVxK _, _ | .ldVxMem _, _ => false
  | .ldVxVy _ y, r => r == y
  | .seVxVy x y, r | .sneVxVy x y, r | .orVxVy x y, r | .andVxVy x y, r | .xorVxVy x y, r | .addVxVy x y, r
  | .subVxVy x y, r | .subnVxVy x y, r | .drwVxVyN x y _, r => r == x || r == y
  | .skpVx x, r | .sknpVx x, r | .ldDtVx x, r | .ldStVx x, r | .addIVx x, r | .ldFVx x, r | .ldBVx x, r => r == x
  | .ldMemVx x, r => decide (r ≤ x)

/-- The six instructions that write VF as a side effect (R21). -/
def flagWriter : Instr → Bool
  | .addVxVy _ _ | .subVxVy _ _ | .shrVx _ _ | .subnVxVy _ _ | .shlVx _ _ | .drwVxVyN _ _ _ => true
  | .cls | .ret | .jp _ | .call _ | .seVxKk _ _ | .sneVxKk _ _ | .seVxVy _ _ | .ldVxKk _ _ | .addVxKk _ _
  | .ldVxVy _ _ | .orVxVy _ _ | .andVxVy _ _ | .xorVxVy _ _ | .sneVxVy _ _ | .ldINnn _ | .jpV0Nnn _ | .rndVxKk _ _
  | .skpVx _ | .sknpVx _ | .ldVxDt _ | .ldVxK _ | .ldDtVx _ | .ldStVx _ | .addIVx _ | .ldFVx _ | .ldBVx _
  | .ldMemVx _ | .ldVxMem _ => false

/-- The registers an instruction writes as its destination (R22). -/
def writesReg : Instr → Reg → Bool
  | .ldVxKk x _, r | .addVxKk x _, r | .ldVxVy x _, r | .orVxVy x _, r | .andVxVy x _, r | .xorVxVy x _, r
  | .addVxVy x _, r | .subVxVy x _, r | .shrVx x _, r | .subnVxVy x _, r | .shlVx x _, r | .rndVxKk x _, r
  | .ldVxDt x, r | .ldVxK x, r => r == x
  | .ldVxMem x, r => decide (r ≤ x)
  | .cls, _ | .ret, _ | .jp _, _ | .call _, _ | .seVxKk _ _, _ | .sneVxKk _ _, _ | .seVxVy _ _, _ | .sneVxVy _ _, _
  | .ldINnn _, _ | .jpV0Nnn _, _ | .drwVxVyN _ _ _, _ | .skpVx _, _ | .sknpVx _, _ | .ldDtVx _, _ | .ldStVx _, _
  | .addIVx _, _ | .ldFVx _, _ | .ldBVx _, _ | .ldMemVx _, _ => false

/-- The three instructions that poll the key port (R170). -/
def KeyInstr (i : Instr) : Prop := ∃ x, i = .skpVx x ∨ i = .sknpVx x ∨ i = .ldVxK x

/-- MemRange for `n` bytes at `I`: the address it records, if it is raised (R54). -/
def rangeFault (s : State) (n : Nat) : Option (FaultCode × Nat) :=
  if 1 ≤ n ∧ 4096 ≤ s.i.toNat + n - 1 then some (.memRange, max s.i.toNat 4096) else none

/-- The fault an instruction raises in a state, and the address it records (R180). -/
def faultOf (s : State) : Instr → Option (FaultCode × Nat)
  | .ret => if s.sp.val = 0 then some (.stackUnderflow, 0) else none
  | .call _ => if s.sp.val = 16 then some (.stackOverflow, 0) else none
  | .drwVxVyN _ _ n => rangeFault s n
  | .ldBVx _ => rangeFault s 3
  | .ldMemVx x => rangeFault s (x.val + 1)
  | .ldVxMem x => rangeFault s (x.val + 1)
  | .cls | .jp _ | .seVxKk _ _ | .sneVxKk _ _ | .seVxVy _ _ | .sneVxVy _ _ | .ldVxKk _ _ | .addVxKk _ _ | .ldVxVy _ _
  | .orVxVy _ _ | .andVxVy _ _ | .xorVxVy _ _ | .addVxVy _ _ | .subVxVy _ _ | .shrVx _ _ | .subnVxVy _ _ | .shlVx _ _
  | .ldINnn _ | .jpV0Nnn _ | .rndVxKk _ _ | .skpVx _ | .sknpVx _ | .ldVxDt _ | .ldVxK _ | .ldDtVx _ | .ldStVx _
  | .addIVx _ | .ldFVx _ => none

/-- The target of a jump-class instruction, where it has one (R103). A waiting LD Vx,K jumps to itself. -/
def jumpTarget (s : State) : Instr → Option Nat
  | .ret => some s.stackTop.toNat
  | .jp nnn | .call nnn => some nnn.toNat
  | .jpV0Nnn nnn => some (nnn.toNat + (s.getV 0).toNat)
  | .cls | .seVxKk _ _ | .sneVxKk _ _ | .seVxVy _ _ | .sneVxVy _ _ | .ldVxKk _ _ | .addVxKk _ _ | .ldVxVy _ _
  | .orVxVy _ _ | .andVxVy _ _ | .xorVxVy _ _ | .addVxVy _ _ | .subVxVy _ _ | .shrVx _ _ | .subnVxVy _ _ | .shlVx _ _
  | .ldINnn _ | .rndVxKk _ _ | .drwVxVyN _ _ _ | .skpVx _ | .sknpVx _ | .ldVxDt _ | .ldVxK _ | .ldDtVx _ | .ldStVx _
  | .addIVx _ | .ldFVx _ | .ldBVx _ | .ldMemVx _ | .ldVxMem _ => none

/-- The host keeps its order (R211, R212): at most one load after a reset, and it before the first step. `mayLoad`: a load may
come now. That a load which failed with LoadOverflow is that one load, and that steps may follow it, is the model's own choice
(notes/assumptions/13.md). -/
def hostKeepsOrder (mayLoad : Bool) : List Action → Bool
  | [] => true
  | .engine :: rest => hostKeepsOrder false rest
  | .delayTick :: rest => hostKeepsOrder mayLoad rest
  | .soundTick :: rest => hostKeepsOrder mayLoad rest
  | .reset _ :: rest => hostKeepsOrder true rest
  | .load _ :: rest => mayLoad && hostKeepsOrder false rest

/-- A timer agent's action. -/
def IsTick (a : Action) : Prop := a = .delayTick ∨ a = .soundTick

end Sys2Proof.Claims

open Sys2Proof Sys2Proof.Machine Sys2Proof.Safety Sys2Proof.Claims

/-! ### Reset -/

/-- R210, R38: every state element after reset, from any state and under any MEM_FILL: `fill` lists its bytes from address 80 on,
and 0, its recommended default, stands where the list ends. The reset state is that under the default. -/
def Obligations.ResetGivesEveryElementItsValue : Prop :=
  (∀ (s : State) (fill : List Byte), ∃ t, act (.reset fill) s = .next t ∧
    (∀ r, t.getV r = 0) ∧ t.i = 0 ∧ t.pc = 0x200 ∧ (∀ j : Fin 16, t.stack[j] = 0) ∧ t.sp.val = 0 ∧
    t.dt = 0 ∧ t.st = 0 ∧ t.key = none ∧
    (∀ a, a < 80 → t.mem.read a = (glyphTable.flatten).getD a 0) ∧
    (∀ a, 80 ≤ a → a < 4096 → t.mem.read a = fill.getD (a - 80) 0) ∧
    (∀ r c, r < 32 → c < 64 → cell t.fb r c = false) ∧
    t.runState = .running ∧ t.faultCode.bits = 0 ∧ t.faultPc = 0 ∧ t.faultOp = 0 ∧ t.faultAddr = 0) ∧
  act (.reset []) State.reset = .next State.reset ∧ Sys2Proof.core.reset = State.reset

/-- R37: glyph g occupies the 5 bytes at 5*g, and the font is ordinary memory: whatever a cell of it is written, that is
what it then reads as. -/
def Obligations.FontLiesInOrdinaryMemory : Prop :=
  (∀ g k, g < 16 → k < 5 → State.reset.mem.read (5 * g + k) = ((glyphTable.getD g []).getD k 0)) ∧
  (∀ (m : Memory) a v, m.wf → a < 80 → (m.write a v).read a = v)

/-! ### Encoding -/

/-- R83, R84: the word of every well-formed instruction decodes to it, with every operand at every value. -/
def Obligations.EncodedInstructionDecodesToItself : Prop :=
  ∀ i : Instr, i.wf = true → decode (encode i) = .ok i

/-- R83: a legal word stands for one well-formed instruction, whose word it is: no two words share a meaning. -/
def Obligations.LegalWordIsTheWordOfItsInstruction : Prop :=
  ∀ (op : Word) (i : Instr), decode op = .ok i → i.wf = true ∧ encode i = op

/-- R83, R84, R85: a word selects row k's instruction exactly when `op & mask = match` for row k; it is illegal exactly when it
matches no row. -/
def Obligations.RowMatchSelectsTheInstruction : Prop :=
  ∀ op : Word,
    (∀ k, k < 34 →
      ((op &&& ((tableRows.getD k (0, 0)).1) = (tableRows.getD k (0, 0)).2) ↔ ∃ i, decode op = .ok i ∧ rowOf i = k)) ∧
    (decode op = .error (.illegal op) ↔ ∀ k, k < 34 → op &&& ((tableRows.getD k (0, 0)).1) ≠ (tableRows.getD k (0, 0)).2)

/-- 95_test_vectors.md T8: words written out from the table, one of each format and each primary group, and illegal
neighbours. -/
def Obligations.WrittenWordsDecode : Prop :=
  decode 0x00E0 = .ok .cls ∧ decode 0x00EE = .ok .ret ∧ decode 0x1ABC = .ok (.jp 0xABC) ∧
  decode 0x3A42 = .ok (.seVxKk 10 0x42) ∧ decode 0x5AB0 = .ok (.seVxVy 10 11) ∧ decode 0x8ABE = .ok (.shlVx 10 11) ∧
  decode 0x9AB0 = .ok (.sneVxVy 10 11) ∧ decode 0xDAB5 = .ok (.drwVxVyN 10 11 5) ∧ decode 0xEAA1 = .ok (.sknpVx 10) ∧
  decode 0xFA65 = .ok (.ldVxMem 10) ∧ decode 0x0123 = .error (.illegal 0x0123) ∧
  decode 0x8AB8 = .error (.illegal 0x8AB8) ∧ decode 0x5AB1 = .error (.illegal 0x5AB1) ∧
  decode 0xEA9F = .error (.illegal 0xEA9F) ∧ decode 0xFA75 = .error (.illegal 0xFA75)

/-! ### The step -/

/-- R101, R51: a running engine below the halt limit runs the instruction that the bytes at PC (high) and PC+1 (low) decode to.
The machine's step is that, then the timer ticks that fall before the next step. -/
def Obligations.StepRunsTheDecodedInstruction : Prop :=
  ∀ (s : State) (op : Word) (i : Instr), s.runState = .running → s.pc.toNat < 4094 →
    op.toNat = (s.mem.read s.pc.toNat).toNat * 256 + (s.mem.read (s.pc.toNat + 1)).toNat → decode op = .ok i →
    engineStep s = exec i s ∧ step s = onNext State.ticksBetweenSteps (exec i s)

/-- R181, R184: a word that matches no row raises DecodeFailure with its address and itself recorded. -/
def Obligations.IllegalWordRaisesDecodeFailure : Prop :=
  ∀ (s : State) (op : Word), s.runState = .running → s.pc.toNat < 4094 →
    op.toNat = (s.mem.read s.pc.toNat).toNat * 256 + (s.mem.read (s.pc.toNat + 1)).toNat →
    decode op = .error (.illegal op) →
    ∃ t, engineStep s = .next t ∧ t.faultCode.bits = 1 ∧ Raised s t .decodeFailure op 0

/-- R26, R104: a halted engine's step changes nothing, and it stays halted for ever: after any number of steps only the timers,
which count down on their own, may differ. -/
def Obligations.HaltedEngineStaysHalted : Prop :=
  ∀ (s : State) (n : Nat), s.runState = .running → 4094 ≤ s.pc.toNat →
    engineStep s = .next s ∧ s.isHalted = true ∧
    ∃ t, RunsTo n s t ∧ EndedNormally t ∧ t.dt.toNat ≤ s.dt.toNat ∧ t.st.toNat ≤ s.st.toNat ∧
      t = { s with dt := t.dt, st := t.st, delayFeed := t.delayFeed, soundFeed := t.soundFeed }

/-- R105, R189: a faulted engine's step changes nothing, whatever PC holds; it stays faulted for ever with the first fault's
registers, and reset is the way out. -/
def Obligations.FaultedEngineStaysFaulted : Prop :=
  ∀ (s : State) (n : Nat), s.runState = .faulted →
    engineStep s = .next s ∧ s.isHalted = false ∧ s.isFaulted = true ∧
    (∃ t, RunsTo n s t ∧ EndedInFault t ∧ t.dt.toNat ≤ s.dt.toNat ∧ t.st.toNat ≤ s.st.toNat ∧
      t = { s with dt := t.dt, st := t.st, delayFeed := t.delayFeed, soundFeed := t.soundFeed }) ∧
    ∀ fill, ∃ u, act (.reset fill) s = .next u ∧ u.runState = .running

/-- R102, R107: nothing blocks: from every state, by every instruction and every step, there is a next state. -/
def Obligations.EveryStepAnswersAState : Prop :=
  (∀ (i : Instr) (s : State), ∃ t, exec i s = .next t) ∧ (∀ s : State, ∃ t, step s = .next t) ∧
  ∀ (n : Nat) (s : State), ∃ t, RunsTo n s t

/-- R100, R197: a machine step is one interleaving of atomic actions: the engine's step, then as many Delay and Sound ticks as
the outside world delivers. The grouping is the model's own choice (notes/assumptions/3.md). -/
def Obligations.StepIsTheEngineThenTicks : Prop :=
  ∀ s t : State, step s = .next t →
    ∃ u, runActions false (.engine ::
        (List.replicate s.delayTicksDue .delayTick ++ List.replicate s.soundTicksDue .soundTick)) s = .next u ∧
      t = { u with delayFeed := s.delayFeed.advance, soundFeed := s.soundFeed.advance }

/-- R197, R216: no interleaving is lost: whatever ticks fall after a step, in whatever order, the machine's step under the
matching tick counts does the same. And each timer agent ticks infinitely often, from every state, whether the engine is
running, waiting, halted or faulted: however many steps are taken, one comes later that ticks follow. The grouping of ticks
behind steps is the model's own choice (notes/assumptions/3.md). -/
def Obligations.AnyTicksMayFollowAStep : Prop :=
  (∀ (s u : State) (ticks : List Action) (m n : Nat), (∀ a ∈ ticks, IsTick a) →
    runActions false (.engine :: ticks) s = .next u →
    step { s with delayFeed := { queued := [ticks.count .delayTick], taken := m },
                  soundFeed := { queued := [ticks.count .soundTick], taken := n } } =
      .next { u with delayFeed := { queued := [], taken := m + 1 }, soundFeed := { queued := [], taken := n + 1 } }) ∧
  ∀ (s : State) (n : Nat),
    (∃ m t, n ≤ m ∧ RunsTo m s t ∧ t.delayTicksDue ≠ 0) ∧ ∃ m t, n ≤ m ∧ RunsTo m s t ∧ t.soundTicksDue ≠ 0

/-! ### Control flow -/

/-- R111, R183: RET pops and jumps to the popped address, the entry keeping its value; on an empty stack it raises
StackUnderflow and changes nothing else. -/
def Obligations.RetPopsOrUnderflows : Prop :=
  encode .ret = 0x00EE ∧
  ∀ s : State,
    (0 < s.sp.val → ∃ t, exec .ret s = .next t ∧
      t.pc = s.stack[s.sp.val - 1]'(by have := s.sp.isLt; omega) ∧ t.sp.val = s.sp.val - 1 ∧ SameMemory s t ∧
      t = { s with sp := t.sp, pc := t.pc }) ∧
    (s.sp.val = 0 → ∃ t, exec .ret s = .next t ∧ t.faultCode.bits = 3 ∧ Raised s t .stackUnderflow 0x00EE 0)

/-- R112, R182: CALL pushes PC + 2 and jumps; on a full stack it raises StackOverflow and changes nothing else. -/
def Obligations.CallPushesOrOverflows : Prop :=
  ∀ (nnn : Addr12) (s : State),
    encode (.call nnn) = (0x2#4 ++ nnn : BitVec 16) ∧
    (∀ _h : s.sp.val < 16, ∃ t, exec (.call nnn) s = .next t ∧ t.stack[s.sp.val].toNat = (s.pc.toNat + 2) % 65536 ∧
      (∀ j : Fin 16, j.val ≠ s.sp.val → t.stack[j] = s.stack[j]) ∧ t.sp.val = s.sp.val + 1 ∧
      t.pc.toNat = nnn.toNat ∧ SameMemory s t ∧ t = { s with stack := t.stack, sp := t.sp, pc := t.pc }) ∧
    (s.sp.val = 16 → ∃ t, exec (.call nnn) s = .next t ∧ t.faultCode.bits = 2 ∧
      Raised s t .stackOverflow (0x2#4 ++ nnn : BitVec 16) 0)

/-- R111, R112, R119: a CALL followed by a RET comes back to the instruction after the CALL with nothing else changed but the
stack entry above SP. -/
def Obligations.CallThenRetComesBack : Prop :=
  ∀ (nnn : Addr12) (s : State), s.sp.val < 16 →
    ∃ t u, exec (.call nnn) s = .next t ∧ exec .ret t = .next u ∧ u.pc.toNat = (s.pc.toNat + 2) % 65536 ∧
      (∀ j : Fin 16, j.val ≠ s.sp.val → u.stack[j] = s.stack[j]) ∧ SameMemory s u ∧
      u = { s with stack := u.stack, pc := u.pc }

/-- R113: JP nnn. -/
def Obligations.JumpGoesToItsAddress : Prop :=
  ∀ (nnn : Addr12) (s : State), encode (.jp nnn) = (0x1#4 ++ nnn : BitVec 16) ∧
    ∃ t, exec (.jp nnn) s = .next t ∧ OnlyPc s t nnn.toNat

/-- R114: JP V0,nnn is a 16-bit sum with V0, whatever register nnn's high nibble would name, not masked to 12 bits. -/
def Obligations.IndexedJumpAddsV0 : Prop :=
  ∀ (nnn : Addr12) (s : State), encode (.jpV0Nnn nnn) = (0xB#4 ++ nnn : BitVec 16) ∧
    ∃ t, exec (.jpV0Nnn nnn) s = .next t ∧ OnlyPc s t (nnn.toNat + (s.getV 0).toNat)

/-- R115, R116: SE Vx,kk and SNE Vx,kk. -/
def Obligations.SkipsOnAnImmediate : Prop :=
  ∀ (x : Reg) (kk : Byte) (s : State),
    encode (.seVxKk x kk) = (0x3#4 ++ nib x ++ kk : BitVec 16) ∧
    encode (.sneVxKk x kk) = (0x4#4 ++ nib x ++ kk : BitVec 16) ∧
    (∃ t, exec (.seVxKk x kk) s = .next t ∧
      OnlyPc s t (if s.getV x = kk then (s.pc.toNat + 4) % 65536 else (s.pc.toNat + 2) % 65536)) ∧
    ∃ t, exec (.sneVxKk x kk) s = .next t ∧
      OnlyPc s t (if s.getV x = kk then (s.pc.toNat + 2) % 65536 else (s.pc.toNat + 4) % 65536)

/-- R117, R118: SE Vx,Vy and SNE Vx,Vy. -/
def Obligations.SkipsOnTwoRegisters : Prop :=
  ∀ (x y : Reg) (s : State),
    encode (.seVxVy x y) = (0x5#4 ++ nib x ++ nib y ++ 0x0#4 : BitVec 16) ∧
    encode (.sneVxVy x y) = (0x9#4 ++ nib x ++ nib y ++ 0x0#4 : BitVec 16) ∧
    (∃ t, exec (.seVxVy x y) s = .next t ∧
      OnlyPc s t (if s.getV x = s.getV y then (s.pc.toNat + 4) % 65536 else (s.pc.toNat + 2) % 65536)) ∧
    ∃ t, exec (.sneVxVy x y) s = .next t ∧
      OnlyPc s t (if s.getV x = s.getV y then (s.pc.toNat + 2) % 65536 else (s.pc.toNat + 4) % 65536)

/-! ### ALU -/

/-- R130: LD Vx,kk. -/
def Obligations.LoadImmediateWritesVx : Prop :=
  ∀ (x : Reg) (kk : Byte) (s : State), encode (.ldVxKk x kk) = (0x6#4 ++ nib x ++ kk : BitVec 16) ∧
    ∃ t, exec (.ldVxKk x kk) s = .next t ∧ OnlyRegister s t x kk

/-- R131: ADD Vx,kk wraps at 256 and writes no flag. -/
def Obligations.AddImmediateWrapsWithoutFlag : Prop :=
  ∀ (x : Reg) (kk : Byte) (s : State), encode (.addVxKk x kk) = (0x7#4 ++ nib x ++ kk : BitVec 16) ∧
    ∃ t, exec (.addVxKk x kk) s = .next t ∧
      OnlyRegister s t x (BitVec.ofNat 8 (((s.getV x).toNat + kk.toNat) % 256))

/-- R132 to R135: copy, OR, AND, XOR, bit by bit; VF is left unchanged. -/
def Obligations.CopyAndLogicLeaveTheFlag : Prop :=
  ∀ (x y : Reg) (s : State),
    encode (.ldVxVy x y) = (0x8#4 ++ nib x ++ nib y ++ 0x0#4 : BitVec 16) ∧
    encode (.orVxVy x y) = (0x8#4 ++ nib x ++ nib y ++ 0x1#4 : BitVec 16) ∧
    encode (.andVxVy x y) = (0x8#4 ++ nib x ++ nib y ++ 0x2#4 : BitVec 16) ∧
    encode (.xorVxVy x y) = (0x8#4 ++ nib x ++ nib y ++ 0x3#4 : BitVec 16) ∧
    (∃ t, exec (.ldVxVy x y) s = .next t ∧ OnlyRegister s t x (s.getV y)) ∧
    (∃ t, exec (.orVxVy x y) s = .next t ∧ OnlyRegister s t x (t.getV x) ∧
      ∀ b, b < 8 → (t.getV x).getLsbD b = ((s.getV x).getLsbD b || (s.getV y).getLsbD b)) ∧
    (∃ t, exec (.andVxVy x y) s = .next t ∧ OnlyRegister s t x (t.getV x) ∧
      ∀ b, b < 8 → (t.getV x).getLsbD b = ((s.getV x).getLsbD b && (s.getV y).getLsbD b)) ∧
    ∃ t, exec (.xorVxVy x y) s = .next t ∧ OnlyRegister s t x (t.getV x) ∧
      ∀ b, b < 8 → (t.getV x).getLsbD b = ((s.getV x).getLsbD b ^^ (s.getV y).getLsbD b)

/-- R136, R141: ADD Vx,Vy: the 8-bit sum, and VF the carry out, written last. -/
def Obligations.AddSetsCarryOut : Prop :=
  ∀ (x y : Reg) (s : State), encode (.addVxVy x y) = (0x8#4 ++ nib x ++ nib y ++ 0x4#4 : BitVec 16) ∧
    ∃ t, exec (.addVxVy x y) s = .next t ∧
      OnlyRegisterAndFlag s t x (((s.getV x).toNat + (s.getV y).toNat) % 256)
        (if (s.getV x).toNat + (s.getV y).toNat > 255 then 1 else 0)

/-- R137, R141: SUB Vx,Vy: Vx - Vy wrapped, and VF the not-borrow, 1 for equal operands, written last. -/
def Obligations.SubtractSetsNotBorrow : Prop :=
  ∀ (x y : Reg) (s : State), encode (.subVxVy x y) = (0x8#4 ++ nib x ++ nib y ++ 0x5#4 : BitVec 16) ∧
    ∃ t, exec (.subVxVy x y) s = .next t ∧
      OnlyRegisterAndFlag s t x
        (if (s.getV x).toNat ≥ (s.getV y).toNat then (s.getV x).toNat - (s.getV y).toNat
          else (s.getV x).toNat + 256 - (s.getV y).toNat)
        (if (s.getV x).toNat ≥ (s.getV y).toNat then 1 else 0)

/-- R138, R141: SHR Vx halves Vx, VF the bit shifted out; Vy has no influence. -/
def Obligations.ShiftRightReportsTheLowBit : Prop :=
  ∀ (x y : Reg) (s : State), encode (.shrVx x y) = (0x8#4 ++ nib x ++ nib y ++ 0x6#4 : BitVec 16) ∧
    ∃ t, exec (.shrVx x y) s = .next t ∧
      OnlyRegisterAndFlag s t x ((s.getV x).toNat / 2) ((s.getV x).toNat % 2)

/-- R139, R141: SUBN Vx,Vy: Vy - Vx wrapped into Vx, and VF the not-borrow, written last. -/
def Obligations.ReverseSubtractSetsNotBorrow : Prop :=
  ∀ (x y : Reg) (s : State), encode (.subnVxVy x y) = (0x8#4 ++ nib x ++ nib y ++ 0x7#4 : BitVec 16) ∧
    ∃ t, exec (.subnVxVy x y) s = .next t ∧
      OnlyRegisterAndFlag s t x
        (if (s.getV y).toNat ≥ (s.getV x).toNat then (s.getV y).toNat - (s.getV x).toNat
          else (s.getV y).toNat + 256 - (s.getV x).toNat)
        (if (s.getV y).toNat ≥ (s.getV x).toNat then 1 else 0)

/-- R140, R141: SHL Vx doubles Vx modulo 256, VF the bit shifted out; Vy has no influence. -/
def Obligations.ShiftLeftReportsTheHighBit : Prop :=
  ∀ (x y : Reg) (s : State), encode (.shlVx x y) = (0x8#4 ++ nib x ++ nib y ++ 0xE#4 : BitVec 16) ∧
    ∃ t, exec (.shlVx x y) s = .next t ∧
      OnlyRegisterAndFlag s t x ((s.getV x).toNat * 2 % 256) ((s.getV x).toNat / 128)

/-- R146: RND Vx,kk takes one random byte, whatever it is, and keeps the bits of it that kk has. -/
def Obligations.RandomByteIsMasked : Prop :=
  ∀ (x : Reg) (kk : Byte) (s : State), encode (.rndVxKk x kk) = (0xC#4 ++ nib x ++ kk : BitVec 16) ∧
    ∃ t, exec (.rndVxKk x kk) s = .next t ∧
      (∀ b, b < 8 → (t.getV x).getLsbD b = (s.rndIn.getLsbD b && kk.getLsbD b)) ∧
      (∀ r, r ≠ x → t.getV r = s.getV r) ∧ PcNext s t ∧ SameMemory s t ∧
      t.rndFeed = s.rndFeed.advance ∧ t = { s with v := t.v, pc := t.pc, rndFeed := t.rndFeed }

/-! ### Index register and memory -/

/-- R150: LD I,nnn. -/
def Obligations.LoadIndexImmediate : Prop :=
  ∀ (nnn : Addr12) (s : State), encode (.ldINnn nnn) = (0xA#4 ++ nnn : BitVec 16) ∧
    ∃ t, exec (.ldINnn nnn) s = .next t ∧ t.i.toNat = nnn.toNat ∧ PcNext s t ∧ SameMemory s t ∧
      t = { s with i := t.i, pc := t.pc }

/-- R151: ADD I,Vx wraps at 2^16 and writes no flag. -/
def Obligations.AddIndexWrapsAtSixteenBits : Prop :=
  ∀ (x : Reg) (s : State), encode (.addIVx x) = (0xF#4 ++ nib x ++ 0x1E#8 : BitVec 16) ∧
    ∃ t, exec (.addIVx x) s = .next t ∧ t.i.toNat = (s.i.toNat + (s.getV x).toNat) % 65536 ∧ PcNext s t ∧
      SameMemory s t ∧ t = { s with i := t.i, pc := t.pc }

/-- R152: LD F,Vx: 5 times the low nibble of Vx. -/
def Obligations.FontAddressIsFiveTimesTheNibble : Prop :=
  ∀ (x : Reg) (s : State), encode (.ldFVx x) = (0xF#4 ++ nib x ++ 0x29#8 : BitVec 16) ∧
    ∃ t, exec (.ldFVx x) s = .next t ∧ t.i.toNat = 5 * ((s.getV x).toNat % 16) ∧ PcNext s t ∧ SameMemory s t ∧
      t = { s with i := t.i, pc := t.pc }

/-- R153, R54: LD B,Vx stores the three digits at I, I+1, I+2 and nothing else; where I + 2 is outside memory it raises
MemRange and writes no byte. -/
def Obligations.BcdStoresThreeDigits : Prop :=
  ∀ (x : Reg) (s : State), encode (.ldBVx x) = (0xF#4 ++ nib x ++ 0x33#8 : BitVec 16) ∧
    (s.mem.wf → s.i.toNat + 2 < 4096 → ∃ t, exec (.ldBVx x) s = .next t ∧
      (t.mem.read (s.dataAddr 0)).toNat = (s.getV x).toNat / 100 ∧
      (t.mem.read (s.dataAddr 1)).toNat = (s.getV x).toNat / 10 % 10 ∧
      (t.mem.read (s.dataAddr 2)).toNat = (s.getV x).toNat % 10 ∧
      (∀ a, a < s.dataAddr 0 ∨ s.dataAddr 2 < a → t.mem.read a = s.mem.read a) ∧ t.mem.wf ∧
      PcNext s t ∧ t = { s with mem := t.mem, pc := t.pc }) ∧
    (4096 ≤ s.i.toNat + 2 → ∃ t, exec (.ldBVx x) s = .next t ∧ t.faultCode.bits = 4 ∧
      Raised s t .memRange (0xF#4 ++ nib x ++ 0x33#8 : BitVec 16) (max s.i.toNat 4096))

/-- R154, R54: LD [I],Vx stores V0..Vx at I..I+x and nothing else, I unchanged; where I + x is outside memory it raises MemRange
and writes no byte. -/
def Obligations.RegisterDumpStoresV0ToVx : Prop :=
  ∀ (x : Reg) (s : State), encode (.ldMemVx x) = (0xF#4 ++ nib x ++ 0x55#8 : BitVec 16) ∧
    (s.mem.wf → s.i.toNat + x.val < 4096 → ∃ t, exec (.ldMemVx x) s = .next t ∧
      (∀ r : Reg, r ≤ x → t.mem.read (s.dataAddr r.val) = s.getV r) ∧
      (∀ a, a < s.dataAddr 0 ∨ s.dataAddr x.val < a → t.mem.read a = s.mem.read a) ∧ t.mem.wf ∧
      PcNext s t ∧ t = { s with mem := t.mem, pc := t.pc }) ∧
    (4096 ≤ s.i.toNat + x.val → ∃ t, exec (.ldMemVx x) s = .next t ∧ t.faultCode.bits = 4 ∧
      Raised s t .memRange (0xF#4 ++ nib x ++ 0x55#8 : BitVec 16) (max s.i.toNat 4096))

/-- R155, R54: LD Vx,[I] loads V0..Vx from I..I+x, the registers above x, I and memory unchanged; where I + x is outside memory
it raises MemRange and writes no register. -/
def Obligations.RegisterLoadReadsV0ToVx : Prop :=
  ∀ (x : Reg) (s : State), encode (.ldVxMem x) = (0xF#4 ++ nib x ++ 0x65#8 : BitVec 16) ∧
    (s.i.toNat + x.val < 4096 → ∃ t, exec (.ldVxMem x) s = .next t ∧
      (∀ r : Reg, r ≤ x → t.getV r = s.mem.read (s.dataAddr r.val)) ∧ (∀ r : Reg, x < r → t.getV r = s.getV r) ∧
      PcNext s t ∧ SameMemory s t ∧ t = { s with v := t.v, pc := t.pc }) ∧
    (4096 ≤ s.i.toNat + x.val → ∃ t, exec (.ldVxMem x) s = .next t ∧ t.faultCode.bits = 4 ∧
      Raised s t .memRange (0xF#4 ++ nib x ++ 0x65#8 : BitVec 16) (max s.i.toNat 4096))

/-! ### Display -/

/-- R160, R163: CLS unsets every cell and emits one redraw. -/
def Obligations.ClearUnsetsEveryCell : Prop :=
  encode .cls = 0x00E0 ∧
  ∀ s : State, ∃ t, exec .cls s = .next t ∧ (∀ r c, r < 32 → c < 64 → cell t.fb r c = false) ∧
    t.redraws = s.redraws + 1 ∧ PcNext s t ∧ SameMemory s t ∧
    t = { s with fb := t.fb, redraws := t.redraws, pc := t.pc }

/-- R162: the blitter toggles exactly the visible cells under set sprite bits, and its result is 1 exactly when it unset one:
nothing wraps, and what falls outside is dropped and does not collide. -/
def Obligations.BlitterTogglesExactlyTheVisibleSprite : Prop :=
  ∀ (fb : FrameBuffer) (px py : Nat) (sprite : List Byte),
    (∀ r c, r < 32 → c < 64 →
      cell (draw fb px py sprite).fb r c = (cell fb r c ^^ spriteCell px py sprite r c)) ∧
    ((draw fb px py sprite).coll = true ↔
      ∃ r c, r < 32 ∧ c < 64 ∧ cell fb r c = true ∧ spriteCell px py sprite r c = true)

/-- R161, R54: DRW draws the n bytes at I at (Vx, Vy), sampled before VF is written, VF the collision, and emits one redraw; where
a byte of it is outside memory it raises MemRange and changes nothing else; with n = 0 it never does. -/
def Obligations.DrawReadsTheSpriteAtI : Prop :=
  ∀ (x y : Reg) (n : Nat) (s : State), n ≤ 15 →
    encode (.drwVxVyN x y n) = (0xD#4 ++ nib x ++ nib y ++ BitVec.ofNat 4 n : BitVec 16) ∧
    (n = 0 ∨ s.i.toNat + n - 1 < 4096 → ∃ t, exec (.drwVxVyN x y n) s = .next t ∧
      (∀ r c, r < 32 → c < 64 → cell t.fb r c = (cell s.fb r c ^^
        spriteCell (s.getV x).toNat (s.getV y).toNat (s.mem.readBytes (s.dataAddr 0) n) r c)) ∧
      (t.getV 15 = 0 ∨ t.getV 15 = 1) ∧
      (t.getV 15 = 1 ↔ ∃ r c, r < 32 ∧ c < 64 ∧ cell s.fb r c = true ∧
        spriteCell (s.getV x).toNat (s.getV y).toNat (s.mem.readBytes (s.dataAddr 0) n) r c = true) ∧
      (∀ r, r ≠ 15 → t.getV r = s.getV r) ∧ t.redraws = s.redraws + 1 ∧ PcNext s t ∧ SameMemory s t ∧
      t = { s with v := t.v, fb := t.fb, redraws := t.redraws, pc := t.pc }) ∧
    (0 < n → 4096 ≤ s.i.toNat + n - 1 → ∃ t, exec (.drwVxVyN x y n) s = .next t ∧ t.faultCode.bits = 4 ∧
      Raised s t .memRange (0xD#4 ++ nib x ++ nib y ++ BitVec.ofNat 4 n : BitVec 16) (max s.i.toNat 4096))

/-- R164: drawing the same sprite at the same place twice restores every cell, and the second call's flag is 1 exactly when a
visible set bit fell on a cell that was unset before the first. -/
def Obligations.DrawingTwiceRestoresTheFrame : Prop :=
  ∀ (fb : FrameBuffer) (px py : Nat) (sprite : List Byte),
    (draw (draw fb px py sprite).fb px py sprite).fb = fb ∧
    ((draw (draw fb px py sprite).fb px py sprite).coll = true ↔
      ∃ r c, r < 32 ∧ c < 64 ∧ cell fb r c = false ∧ spriteCell px py sprite r c = true)

/-! ### Keypad and timers -/

/-- R172, R171: SKP Vx polls once; a match clears the latch and skips, else the refreshed latch stays. -/
def Obligations.SkipIfKeyConsumesAMatch : Prop :=
  ∀ (x : Reg) (s : State), encode (.skpVx x) = (0xE#4 ++ nib x ++ 0x9E#8 : BitVec 16) ∧
    ∃ t, exec (.skpVx x) s = .next t ∧ (KeyMatch s x → t.key = none ∧ PcSkip s t) ∧
      (¬ KeyMatch s x → t.key = latched s ∧ PcNext s t) ∧ t.keyFeed = s.keyFeed.advance ∧ SameMemory s t ∧
      t = { s with key := t.key, keyFeed := t.keyFeed, pc := t.pc }

/-- R173, R171: SKNP Vx: the same test and clearing, the class inverted. -/
def Obligations.SkipIfNoKeyConsumesAMatch : Prop :=
  ∀ (x : Reg) (s : State), encode (.sknpVx x) = (0xE#4 ++ nib x ++ 0xA1#8 : BitVec 16) ∧
    ∃ t, exec (.sknpVx x) s = .next t ∧ (KeyMatch s x → t.key = none ∧ PcNext s t) ∧
      (¬ KeyMatch s x → t.key = latched s ∧ PcSkip s t) ∧ t.keyFeed = s.keyFeed.advance ∧ SameMemory s t ∧
      t = { s with key := t.key, keyFeed := t.keyFeed, pc := t.pc }

/-- R174, R171, R107: LD Vx,K loads the key that is latched after one poll and leaves it latched; with none it re-issues, and
nothing but the poll happened. -/
def Obligations.KeyWaitLoadsOrReissues : Prop :=
  ∀ (x : Reg) (s : State), encode (.ldVxK x) = (0xF#4 ++ nib x ++ 0x0A#8 : BitVec 16) ∧
    (∀ k, latched s = some k → ∃ t, exec (.ldVxK x) s = .next t ∧ (t.getV x).toNat = k.toNat ∧
      (∀ r, r ≠ x → t.getV r = s.getV r) ∧ t.key = some k ∧ t.keyFeed = s.keyFeed.advance ∧ PcNext s t ∧
      SameMemory s t ∧ t = { s with v := t.v, key := t.key, keyFeed := t.keyFeed, pc := t.pc }) ∧
    (latched s = none → exec (.ldVxK x) s = .next { s with keyFeed := s.keyFeed.advance })

/-- R175: LD Vx,DT. -/
def Obligations.ReadDelayTimer : Prop :=
  ∀ (x : Reg) (s : State), encode (.ldVxDt x) = (0xF#4 ++ nib x ++ 0x07#8 : BitVec 16) ∧
    ∃ t, exec (.ldVxDt x) s = .next t ∧ OnlyRegister s t x s.dt

/-- R176: LD DT,Vx. -/
def Obligations.SetDelayTimer : Prop :=
  ∀ (x : Reg) (s : State), encode (.ldDtVx x) = (0xF#4 ++ nib x ++ 0x15#8 : BitVec 16) ∧
    ∃ t, exec (.ldDtVx x) s = .next t ∧ t.dt = s.getV x ∧ PcNext s t ∧ SameMemory s t ∧
      t = { s with dt := t.dt, pc := t.pc }

/-- R177, R198: LD ST,Vx, and the sound output follows at once. -/
def Obligations.SetSoundTimer : Prop :=
  ∀ (x : Reg) (s : State), encode (.ldStVx x) = (0xF#4 ++ nib x ++ 0x18#8 : BitVec 16) ∧
    ∃ t, exec (.ldStVx x) s = .next t ∧ t.st = s.getV x ∧ (t.soundOn = true ↔ s.getV x ≠ 0) ∧ PcNext s t ∧
      SameMemory s t ∧ t = { s with st := t.st, pc := t.pc }

/-- R195, R196: a tick takes one timer down by one, floor 0, and touches nothing else, in any run state. -/
def Obligations.TickCountsDownToZero : Prop :=
  ∀ s : State,
    (∃ t, act .delayTick s = .next t ∧ t.dt.toNat = (if s.dt.toNat ≠ 0 then s.dt.toNat - 1 else 0) ∧
      t = { s with dt := t.dt }) ∧
    ∃ t, act .soundTick s = .next t ∧ t.st.toNat = (if s.st.toNat ≠ 0 then s.st.toNat - 1 else 0) ∧
      t = { s with st := t.st }

/-- R195, R196, R61: any interleaving of Delay and Sound ticks takes each timer down by the count of its own ticks, never below
zero, whatever their order; nothing else changes. -/
def Obligations.TicksInAnyOrderAddUp : Prop :=
  ∀ (s : State) (mayLoad : Bool) (ticks : List Action), (∀ a ∈ ticks, IsTick a) →
    ∃ t, runActions mayLoad ticks s = .next t ∧ t.dt.toNat = s.dt.toNat - ticks.count .delayTick ∧
      t.st.toNat = s.st.toNat - ticks.count .soundTick ∧ t = { s with dt := t.dt, st := t.st }

/-! ### Faults -/

/-- R184: a step that faults records the address and the fetched word, and leaves every other element as it was. -/
def Obligations.FaultsArePrecise : Prop :=
  ∀ s t : State, s.runState = .running → engineStep s = .next t → t.runState = .faulted →
    t.faultCode ≠ .none ∧ t.faultPc = s.pc ∧
    t.faultOp.toNat = (s.mem.read s.pc.toNat).toNat * 256 + (s.mem.read (s.pc.toNat + 1)).toNat ∧
    (t.faultCode = .memRange → t.faultAddr.toNat = max s.i.toNat 4096) ∧
    (t.faultCode ≠ .memRange → t.faultAddr = 0) ∧ t.isFaulted = true ∧ ¬ EndedNormally t ∧ SameMemory s t ∧
    t = { s with runState := .faulted, faultCode := t.faultCode, faultPc := t.faultPc, faultOp := t.faultOp,
                 faultAddr := t.faultAddr }

/-- R180, R185, R187: an instruction faults exactly under its own condition, with its own code; no other instruction ever
does. -/
def Obligations.InstructionsFaultExactlyAsListed : Prop :=
  ∀ (i : Instr) (s t : State), s.runState = .running → exec i s = .next t →
    (∀ f a, faultOf s i = some (f, a) → Raised s t f (encode i) a) ∧
    (faultOf s i = none → t.runState = .running ∧ t.faultCode = s.faultCode ∧ t.faultPc = s.faultPc ∧
      t.faultOp = s.faultOp ∧ t.faultAddr = s.faultAddr)

/-! ### Whole-machine rules -/

/-- R11 with R23, R27 to R34, R163, R170: each state element other than V and PC is written by its own instructions only: the run
state and the fault registers only by an instruction that meets its fault condition (`faultOf`, R180), the model's own redraw
count only by CLS and DRW, the model's own tick feeds by none (log entries 3 and 4). V is the next statement's. -/
def Obligations.EachElementHasItsOwnWriters : Prop :=
  ∀ (i : Instr) (s t : State), exec i s = .next t →
    (t.i ≠ s.i → (∃ nnn, i = .ldINnn nnn) ∨ ∃ x, i = .addIVx x ∨ i = .ldFVx x) ∧
    (t.stack ≠ s.stack → ∃ nnn, i = .call nnn) ∧
    (t.sp ≠ s.sp → i = .ret ∨ ∃ nnn, i = .call nnn) ∧
    (t.dt ≠ s.dt → ∃ x, i = .ldDtVx x) ∧
    (t.st ≠ s.st → ∃ x, i = .ldStVx x) ∧
    (t.key ≠ s.key → KeyInstr i) ∧
    (t.keyFeed ≠ s.keyFeed → KeyInstr i) ∧
    (t.rndFeed ≠ s.rndFeed → ∃ x kk, i = .rndVxKk x kk) ∧
    (t.mem ≠ s.mem → ∃ x, i = .ldBVx x ∨ i = .ldMemVx x) ∧
    (t.fb ≠ s.fb → i = .cls ∨ ∃ x y n, i = .drwVxVyN x y n) ∧
    (t.redraws ≠ s.redraws → i = .cls ∨ ∃ x y n, i = .drwVxVyN x y n) ∧
    (t.runState ≠ s.runState → faultOf s i ≠ none) ∧
    (t.faultCode ≠ s.faultCode → faultOf s i ≠ none) ∧
    (t.faultPc ≠ s.faultPc → faultOf s i ≠ none) ∧
    (t.faultOp ≠ s.faultOp → faultOf s i ≠ none) ∧
    (t.faultAddr ≠ s.faultAddr → faultOf s i ≠ none) ∧
    t.delayFeed = s.delayFeed ∧ t.soundFeed = s.soundFeed

/-- R21, R22: a register changes only as an instruction's destination, or as VF under one of the six flag writers; and those
six leave VF 0 or 1. -/
def Obligations.RegistersChangeOnlyAsDestinations : Prop :=
  ∀ (i : Instr) (s t : State), exec i s = .next t →
    (∀ r, t.getV r ≠ s.getV r → writesReg i r = true ∨ (flagWriter i = true ∧ r = 15)) ∧
    (flagWriter i = true → faultOf s i = none → t.getV 15 = 0 ∨ t.getV 15 = 1)

/-- R22: a register that an instruction does not read has no influence on what it does: VF is read by no instruction that does
not name it, and the shifts do not read Vy. -/
def Obligations.UnreadRegisterHasNoInfluence : Prop :=
  ∀ (i : Instr) (r : Reg) (b : Byte) (s t : State), readsReg i r = false → exec i s = .next t →
    ∃ u, exec i (s.setV r b) = .next u ∧ (∀ q, q ≠ r → u.getV q = t.getV q) ∧ u = { t with v := u.v } ∧
      (u.getV r = t.getV r ∨ (u.getV r = b ∧ t.getV r = s.getV r))

/-- R102: the key input matters only to Ex9E, ExA1 and Fx0A, the random byte only to Cxkk, and the timer schedule to no
instruction: every other instruction does the same whatever they are. -/
def Obligations.InputsMatterOnlyToTheirInstructions : Prop :=
  ∀ (i : Instr) (s : State) (kf : Feed (Option KeyCode)) (rf : Feed Byte) (df sf : Feed Nat),
    (¬ KeyInstr i → exec i { s with keyFeed := kf } = onNext (fun t => { t with keyFeed := kf }) (exec i s)) ∧
    ((¬ ∃ x kk, i = .rndVxKk x kk) →
      exec i { s with rndFeed := rf } = onNext (fun t => { t with rndFeed := rf }) (exec i s)) ∧
    exec i { s with delayFeed := df, soundFeed := sf } =
      onNext (fun t => { t with delayFeed := df, soundFeed := sf }) (exec i s)

/-- R25: PC stays even through any step whose jump target, if it has one, is even. -/
def Obligations.EvenPcStaysEven : Prop :=
  ∀ s t : State, engineStep s = .next t → s.pc.toNat % 2 = 0 →
    (∀ i a, decode s.fetch = .ok i → jumpTarget s i = some a → a % 2 = 0) → t.pc.toNat % 2 = 0

/-! ### Memory and the host -/

/-- The canonical form is canonical: memories that read alike everywhere are equal data. The form is the model's own choice
(notes/assumptions/7.md). -/
def Obligations.MemoriesThatReadAlikeAreEqual : Prop :=
  ∀ m n : Memory, m.wf → n.wf → (∀ a, m.read a = n.read a) → m = n

/-- R62: a load installs the stream at 0x200 and nothing else, or, over-long, fails and changes nothing. -/
def Obligations.LoadInstallsTheStream : Prop :=
  ∀ (s : State) (stream : List Byte), s.mem.wf →
    (stream.length ≤ 3584 → (s.load stream).1 = .ok ∧
      (∀ k, k < stream.length → (s.load stream).2.mem.read (0x200 + k) = stream.getD k 0) ∧
      (∀ a, a < 0x200 ∨ 0x200 + stream.length ≤ a → (s.load stream).2.mem.read a = s.mem.read a) ∧
      (s.load stream).2 = { s with mem := (s.load stream).2.mem }) ∧
    (3584 < stream.length → s.load stream = (.loadOverflow, s))

/-- R101, R85: the word that `withFetchWord` stores is what the engine's next step runs. Where it stores it (at PC, or at 0x200
with PC moved there when PC is at or past the halt limit, the engine set Running) is the model's own choice
(notes/assumptions/8.md); that the fetch sees the store is R63. -/
def Obligations.StoredWordIsRunNext : Prop :=
  ∀ (s : State) (w : Nat), s.mem.wf →
    (∀ i, decode (BitVec.ofNat 16 w) = .ok i →
      engineStep (s.withFetchWord 16 w) = exec i (s.withFetchWord 16 w)) ∧
    (∀ e, decode (BitVec.ofNat 16 w) = .error e → ∃ t, engineStep (s.withFetchWord 16 w) = .next t ∧
      Raised (s.withFetchWord 16 w) t .decodeFailure (BitVec.ofNat 16 w) 0)

/-! ### The invariant -/

/-- The reset state meets the invariant. -/
def Obligations.ResetStateMeetsTheInvariant : Prop := Inv State.reset

/-- Every step keeps the invariant, from every state that meets it. -/
def Obligations.StepKeepsTheInvariant : Prop :=
  ∀ s t : State, Inv s → step s = .next t → Inv t

/-- R100, R211, R212: every execution that begins with a reset, from any state the machine was left in, under any memory fill,
and in which the host keeps its order (otherwise any interleaving whatever of steps, timer ticks and resets) goes on for ever
and keeps the invariant; one in which the host breaks its order has no meaning. It rests on two choices of the model: such an
execution is refused (notes/assumptions/6.md, DEDUCED), and after a load that failed with LoadOverflow steps run on and a second
load is refused, where R211 leaves what follows open (notes/assumptions/13.md, DESIGN CHOICE). -/
def Obligations.EveryBootedExecutionKeepsTheInvariant : Prop :=
  ∀ (s : State) (fill : List Byte) (actions : List Action),
    (hostKeepsOrder true actions = true → ∃ t, runActions false (.reset fill :: actions) s = .next t ∧ Inv t) ∧
    (hostKeepsOrder true actions = false → runActions false (.reset fill :: actions) s = .refused .hostDutyBroken)
end

