-- ==== Sys2Proof/Laws/Blitter.lean ====
section
/-! SUPPORT. The frame buffer's cells under one toggled pixel. -/

namespace Sys2Proof.Laws

open Sys2Proof.Machine

theorem cell_of_ge_row (fb : FrameBuffer) (r c : Nat) (h : 32 ≤ r) : cell fb r c = false := by
  simp [cell, show ¬ r < 32 by omega]

theorem cell_of_ge_col (fb : FrameBuffer) (r c : Nat) (h : 64 ≤ c) : cell fb r c = false := by
  unfold cell
  split
  · exact BitVec.getLsbD_of_ge _ _ h
  · rfl

@[simp] theorem cell_blankFrame (r c : Nat) : cell blankFrame r c = false := by
  simp [cell, blankFrame]

/-- Two frame buffers whose cells agree are equal. -/
theorem fb_ext (fb gb : FrameBuffer) (h : ∀ r c, r < 32 → c < 64 → cell fb r c = cell gb r c) : fb = gb := by
  apply Vector.ext
  intro r hr
  apply BitVec.eq_of_getLsbD_eq
  intro c hc
  have := h r c hr hc
  simpa [cell, hr] using this

/-- One toggle changes one cell of the display and no other. -/
theorem cell_toggleCell (fb : FrameBuffer) (r c r' c' : Nat) (hr : r < 32) (hc : c < 64) :
    cell (toggleCell fb r c) r' c' = (cell fb r' c' ^^ decide (r' = r ∧ c' = c)) := by
  by_cases h : r' < 32
  · by_cases hrr : r' = r
    · subst hrr
      by_cases hcc : c' = c
      · subst hcc
        simp [cell, toggleCell, h, hc]
      · simp [cell, toggleCell, h, BitVec.getLsbD_xor, BitVec.getLsbD_twoPow, hcc, Ne.symm hcc]
    · simp [cell, toggleCell, h, hr, hrr, Ne.symm hrr]
  · simp [cell, h, show r' ≠ r by omega]

/-- One pixel of a draw: it toggles its cell and reports a set one, or it is dropped. -/
theorem blitPixel_cases (px py iy : Nat) (b : Byte) (d : Blit) (ix : Nat) :
    (b.getLsbD (7 - ix) = true ∧ px + ix < 64 ∧ py + iy < 32 ∧
      blitPixel px py iy b d ix =
        { fb := toggleCell d.fb (py + iy) (px + ix), coll := d.coll || cell d.fb (py + iy) (px + ix) }) ∨
    (¬ (b.getLsbD (7 - ix) = true ∧ px + ix < 64 ∧ py + iy < 32) ∧ blitPixel px py iy b d ix = d) := by
  by_cases h : b.getLsbD (7 - ix) = true ∧ px + ix < 64 ∧ py + iy < 32
  · exact .inl ⟨h.1, h.2.1, h.2.2, by rw [blitPixel, if_pos h]⟩
  · exact .inr ⟨h, by rw [blitPixel, if_neg h]⟩

end Sys2Proof.Laws
end

