-- ==== Sys2Proof/Laws/Encoding.lean ====
section
/-! SUPPORT. The fields of the formats' words, and the layout of a word in memory. -/

namespace Sys2Proof.Laws

theorem toNat_formatA (o : Nibble) (nnn : Addr12) : (formatA o nnn).toNat = o.toNat * 4096 + nnn.toNat := by
  simp only [formatA, BitVec.toNat_append]
  rw [← Nat.shiftLeft_add_eq_or_of_lt nnn.isLt, Nat.shiftLeft_eq]

theorem toNat_formatXK (o : Nibble) (x : Reg) (kk : Byte) :
    (formatXK o x kk).toNat = o.toNat * 4096 + x.val * 256 + kk.toNat := by
  simp only [formatXK, BitVec.toNat_append]
  rw [← Nat.shiftLeft_add_eq_or_of_lt kk.isLt,
    ← Nat.shiftLeft_add_eq_or_of_lt (b := (BitVec.ofFin x : Nibble).toNat) (BitVec.isLt _)]
  simp only [Nat.shiftLeft_eq, BitVec.toNat_ofFin]
  omega

theorem toNat_formatXY (o : Nibble) (x y : Reg) (f : Nibble) :
    (formatXY o x y f).toNat = o.toNat * 4096 + x.val * 256 + y.val * 16 + f.toNat := by
  simp only [formatXY, BitVec.toNat_append]
  rw [← Nat.shiftLeft_add_eq_or_of_lt f.isLt,
    ← Nat.shiftLeft_add_eq_or_of_lt (b := (BitVec.ofFin y : Nibble).toNat) (BitVec.isLt _),
    ← Nat.shiftLeft_add_eq_or_of_lt (b := (BitVec.ofFin x : Nibble).toNat) (BitVec.isLt _)]
  simp only [Nat.shiftLeft_eq, BitVec.toNat_ofFin]
  omega

/-! ### Fields as numbers -/

theorem toNat_fieldO1 (op : Word) : (fieldO1 op).toNat = op.toNat / 4096 := by
  have := op.isLt
  simp only [fieldO1, BitVec.extractLsb'_toNat, Nat.shiftRight_eq_div_pow]
  omega

theorem val_fieldX (op : Word) : (fieldX op).val = op.toNat / 256 % 16 := by
  simp only [fieldX, BitVec.val_toFin, BitVec.extractLsb'_toNat, Nat.shiftRight_eq_div_pow]

theorem val_fieldY (op : Word) : (fieldY op).val = op.toNat / 16 % 16 := by
  simp only [fieldY, BitVec.val_toFin, BitVec.extractLsb'_toNat, Nat.shiftRight_eq_div_pow]

theorem toNat_fieldO4 (op : Word) : (fieldO4 op).toNat = op.toNat % 16 := by
  simp [fieldO4, BitVec.extractLsb'_toNat]

theorem fieldN_eq (op : Word) : fieldN op = op.toNat % 16 := toNat_fieldO4 op

theorem toNat_fieldKk (op : Word) : (fieldKk op).toNat = op.toNat % 256 := by
  simp [fieldKk, BitVec.extractLsb'_toNat]

theorem toNat_fieldNnn (op : Word) : (fieldNnn op).toNat = op.toNat % 4096 := by
  simp [fieldNnn, BitVec.extractLsb'_toNat]

/-! ### Fields of a format -/

@[simp] theorem fieldO1_formatA (o : Nibble) (nnn : Addr12) : fieldO1 (formatA o nnn) = o := by
  apply BitVec.eq_of_toNat_eq
  rw [toNat_fieldO1, toNat_formatA]
  have := nnn.isLt
  omega

@[simp] theorem fieldNnn_formatA (o : Nibble) (nnn : Addr12) : fieldNnn (formatA o nnn) = nnn := by
  apply BitVec.eq_of_toNat_eq
  rw [toNat_fieldNnn, toNat_formatA]
  have := nnn.isLt
  omega

@[simp] theorem fieldO1_formatXK (o : Nibble) (x : Reg) (kk : Byte) : fieldO1 (formatXK o x kk) = o := by
  apply BitVec.eq_of_toNat_eq
  rw [toNat_fieldO1, toNat_formatXK]
  have := kk.isLt
  omega

@[simp] theorem fieldX_formatXK (o : Nibble) (x : Reg) (kk : Byte) : fieldX (formatXK o x kk) = x := by
  apply Fin.ext
  rw [val_fieldX, toNat_formatXK]
  have := kk.isLt
  omega

@[simp] theorem fieldKk_formatXK (o : Nibble) (x : Reg) (kk : Byte) : fieldKk (formatXK o x kk) = kk := by
  apply BitVec.eq_of_toNat_eq
  rw [toNat_fieldKk, toNat_formatXK]
  have := kk.isLt
  omega

@[simp] theorem fieldO1_formatXY (o : Nibble) (x y : Reg) (f : Nibble) : fieldO1 (formatXY o x y f) = o := by
  apply BitVec.eq_of_toNat_eq
  rw [toNat_fieldO1, toNat_formatXY]
  have := f.isLt
  omega

@[simp] theorem fieldX_formatXY (o : Nibble) (x y : Reg) (f : Nibble) : fieldX (formatXY o x y f) = x := by
  apply Fin.ext
  rw [val_fieldX, toNat_formatXY]
  have := f.isLt
  omega

@[simp] theorem fieldY_formatXY (o : Nibble) (x y : Reg) (f : Nibble) : fieldY (formatXY o x y f) = y := by
  apply Fin.ext
  rw [val_fieldY, toNat_formatXY]
  have := f.isLt
  omega

@[simp] theorem fieldO4_formatXY (o : Nibble) (x y : Reg) (f : Nibble) : fieldO4 (formatXY o x y f) = f := by
  apply BitVec.eq_of_toNat_eq
  rw [toNat_fieldO4, toNat_formatXY]
  have := f.isLt
  omega

@[simp] theorem fieldN_formatXY (o : Nibble) (x y : Reg) (f : Nibble) : fieldN (formatXY o x y f) = f.toNat := by
  simp [fieldN]

/-! ### A word is its fields -/

theorem formatA_fields (op : Word) : formatA (fieldO1 op) (fieldNnn op) = op := by
  apply BitVec.eq_of_toNat_eq
  rw [toNat_formatA, toNat_fieldO1, toNat_fieldNnn]
  omega

theorem formatXK_fields (op : Word) : formatXK (fieldO1 op) (fieldX op) (fieldKk op) = op := by
  apply BitVec.eq_of_toNat_eq
  rw [toNat_formatXK, toNat_fieldO1, val_fieldX, toNat_fieldKk]
  omega

theorem formatXY_fields (op : Word) : formatXY (fieldO1 op) (fieldX op) (fieldY op) (fieldO4 op) = op := by
  apply BitVec.eq_of_toNat_eq
  rw [toNat_formatXY, toNat_fieldO1, val_fieldX, val_fieldY, toNat_fieldO4]
  omega

/-! ### Masks of the opcode table as fields (30_encoding.md R83, R84) -/

/-- The mask of a row in format A or XK tests the primary opcode. -/
theorem and_maskO1 (op : Word) : op &&& (0xF000 : Word) = (fieldO1 op).setWidth 16 <<< 12 := by
  ext i hi
  interval_cases i <;> simp [fieldO1]

/-- The mask of a row in format XY tests the primary opcode and the low nibble. -/
theorem and_maskXY (op : Word) : op &&& (0xF00F : Word) = (fieldO1 op).setWidth 16 <<< 12 ||| (fieldO4 op).setWidth 16 := by
  ext i hi
  interval_cases i <;> simp [fieldO1, fieldO4]

/-- The mask of a row in format X tests the primary opcode and the low byte. -/
theorem and_maskX (op : Word) : op &&& (0xF0FF : Word) = (fieldO1 op).setWidth 16 <<< 12 ||| (fieldKk op).setWidth 16 := by
  ext i hi
  interval_cases i <;> simp [fieldO1, fieldKk]

/-- A word matches a row of format A or XK exactly when its primary opcode is the row's. -/
theorem and_maskO1_eq_iff (op : Word) (o : Nibble) :
    op &&& (0xF000 : Word) = o.setWidth 16 <<< 12 ↔ fieldO1 op = o := by
  refine ⟨fun h => ?_, fun h => by rw [and_maskO1, h]⟩
  have hf : fieldO1 (op &&& (0xF000 : Word)) = fieldO1 op := by
    ext i hi
    interval_cases i <;> simp [fieldO1]
  rw [← hf, h]
  ext i hi
  interval_cases i <;> simp [fieldO1]

/-- A word matches a row of format XY exactly when its primary opcode and its low nibble are the row's. -/
theorem and_maskXY_eq_iff (op : Word) (o f : Nibble) :
    op &&& (0xF00F : Word) = o.setWidth 16 <<< 12 ||| f.setWidth 16 ↔ fieldO1 op = o ∧ fieldO4 op = f := by
  refine ⟨fun h => ?_, fun h => by rw [and_maskXY, h.1, h.2]⟩
  have h1 : fieldO1 (op &&& (0xF00F : Word)) = fieldO1 op := by
    ext i hi
    interval_cases i <;> simp [fieldO1]
  have h4 : fieldO4 (op &&& (0xF00F : Word)) = fieldO4 op := by
    ext i hi
    interval_cases i <;> simp [fieldO4]
  rw [← h1, ← h4, h]
  constructor <;> ext i hi <;> interval_cases i <;> simp [fieldO1, fieldO4]

/-- A word matches a row of format X exactly when its primary opcode and its low byte are the row's. -/
theorem and_maskX_eq_iff (op : Word) (o : Nibble) (f : Byte) :
    op &&& (0xF0FF : Word) = o.setWidth 16 <<< 12 ||| f.setWidth 16 ↔ fieldO1 op = o ∧ fieldKk op = f := by
  refine ⟨fun h => ?_, fun h => by rw [and_maskX, h.1, h.2]⟩
  have h1 : fieldO1 (op &&& (0xF0FF : Word)) = fieldO1 op := by
    ext i hi
    interval_cases i <;> simp [fieldO1]
  have hk : fieldKk (op &&& (0xF0FF : Word)) = fieldKk op := by
    ext i hi
    interval_cases i <;> simp [fieldKk]
  rw [← h1, ← hk, h]
  constructor <;> ext i hi <;> interval_cases i <;> simp [fieldO1, fieldKk]

/-! ### Bytes (20_memory.md R51) -/

theorem toNat_wordOfBytes (hi lo : Byte) : (wordOfBytes hi lo).toNat = hi.toNat * 256 + lo.toNat := by
  simp only [wordOfBytes, BitVec.toNat_append]
  rw [← Nat.shiftLeft_add_eq_or_of_lt lo.isLt, Nat.shiftLeft_eq]

theorem wordOfBytes_bytesOfWord (op : Word) : wordOfBytes (op.extractLsb' 8 8) (op.extractLsb' 0 8) = op := by
  apply BitVec.eq_of_toNat_eq
  have := op.isLt
  simp only [toNat_wordOfBytes, BitVec.extractLsb'_toNat, Nat.shiftRight_eq_div_pow]
  omega

theorem decodeBytes_bytesOfWord (op : Word) (rest : List Byte) :
    decodeBytes (bytesOfWord op ++ rest) = (decode op).map fun i => (i, rest) := by
  simp only [bytesOfWord, List.cons_append, List.nil_append, decodeBytes, wordOfBytes_bytesOfWord]

/-- A row's word of 16 bits reaches the decoder whole. -/
theorem decodeTableWord_eq (w : Nat) : decodeTableWord 16 w = (decode (BitVec.ofNat 16 w)).toOption := by
  have h := decodeBytes_bytesOfWord (BitVec.ofNat 16 w) []
  rw [List.append_nil] at h
  have hw : BitVec.ofNat 16 (w % 2 ^ 16) = BitVec.ofNat 16 w := by
    apply BitVec.eq_of_toNat_eq
    simp
  rw [decodeTableWord, tableWordBytes, hw, h]
  cases decode (BitVec.ofNat 16 w) <;> rfl

end Sys2Proof.Laws
end

