-- ==== Sys2Proof/Laws/Memory.lean ====
section
/-! SUPPORT. The laws of the memory list: a read after a write, the canonical form, ranges. -/

namespace Sys2Proof.Laws

open Sys2Proof.Machine

theorem wf_nil : Memory.wf [] := by simp [Memory.wf]

/-! ### Reading -/

theorem read_cons (b a : Nat) (w : Byte) (m : Memory) :
    Memory.read ((b, w) :: m) a = if b = a then w else m.read a := rfl

/-- An address no cell lists reads as the unlisted byte. -/
theorem read_of_forall_ne (m : Memory) (a : Nat) (h : ∀ c ∈ m, c.1 ≠ a) : m.read a = unlisted a := by
  induction m with
  | nil => rfl
  | cons c m ih =>
    rw [read_cons, if_neg (h c List.mem_cons_self)]
    exact ih fun d hd => h d (List.mem_cons_of_mem _ hd)

/-- A cell of a canonical memory is what its address reads as. -/
theorem read_of_mem (m : Memory) (hm : m.wf) (a : Nat) (w : Byte) (h : (a, w) ∈ m) : m.read a = w := by
  induction m with
  | nil => simp at h
  | cons c m ih =>
    obtain ⟨hp, hc⟩ := hm
    rw [List.pairwise_cons] at hp
    rw [read_cons]
    rcases List.mem_cons.mp h with rfl | h
    · simp
    · rw [if_neg (Nat.ne_of_lt (hp.1 _ h))]
      exact ih ⟨hp.2, fun d hd => hc d (List.mem_cons_of_mem _ hd)⟩ h

theorem wf_tail {c : Host.Cell} {m : Memory} (h : Memory.wf (c :: m)) : Memory.wf m :=
  ⟨(List.pairwise_cons.mp h.1).2, fun d hd => h.2 d (List.mem_cons_of_mem _ hd)⟩

theorem head_lt {c : Host.Cell} {m : Memory} (h : Memory.wf (c :: m)) : ∀ d ∈ m, c.1 < d.1 :=
  (List.pairwise_cons.mp h.1).1

theorem wf_cons {c : Host.Cell} {m : Memory} (hm : m.wf) (hlt : ∀ d ∈ m, c.1 < d.1) (hc : c.1 < memSize)
    (hu : c.2 ≠ unlisted c.1) : Memory.wf (c :: m) := by
  refine ⟨List.pairwise_cons.mpr ⟨hlt, hm.1⟩, ?_⟩
  intro d hd
  rcases List.mem_cons.mp hd with rfl | hd
  · exact ⟨hc, hu⟩
  · exact hm.2 d hd

/-! ### Writing one byte -/

theorem read_cellsFor (a b : Nat) (v : Byte) (m : Memory) (h : ∀ c ∈ m, c.1 ≠ a) :
    (Memory.cellsFor a v m).read b = if b = a then v else m.read b := by
  unfold Memory.cellsFor
  by_cases hv : v = unlisted a
  · rw [if_pos hv]
    split
    · subst b; rw [read_of_forall_ne m a h, hv]
    · rfl
  · rw [if_neg hv, read_cons]
    simp [eq_comm]

/-- A read after a write: the value at the address written, the old byte everywhere else. -/
theorem read_write (m : Memory) (hm : m.wf) (a : Nat) (v : Byte) (b : Nat) :
    (m.write a v).read b = if b = a then v else m.read b := by
  induction m with
  | nil => exact read_cellsFor a b v [] (by simp)
  | cons c m ih =>
    obtain ⟨d, w⟩ := c
    have hlt := head_lt hm
    unfold Memory.write
    split
    · next h =>
      refine read_cellsFor a b v _ fun e he => ?_
      rcases List.mem_cons.mp he with rfl | he
      · exact (Nat.ne_of_lt h).symm
      · exact (Nat.ne_of_lt (h.trans (hlt e he))).symm
    split
    · next h =>
      subst h
      rw [read_cellsFor _ _ _ _ fun e he => (Nat.ne_of_lt (hlt e he)).symm, read_cons]
      by_cases hb : b = a
      · simp [hb]
      · simp [hb, Ne.symm hb]
    · next h1 h2 =>
      rw [read_cons, read_cons, ih (wf_tail hm)]
      by_cases hd : d = b
      · subst hd; simp [Ne.symm h2]
      · simp [hd]

theorem mem_write_lt (m : Memory) (a : Nat) (v : Byte) (k : Nat) (hk : k < a) (h : ∀ c ∈ m, k < c.1) :
    ∀ c ∈ m.write a v, k < c.1 := by
  have hcells : ∀ (r : Memory), (∀ c ∈ r, k < c.1) → ∀ c ∈ Memory.cellsFor a v r, k < c.1 := by
    intro r hr c hc
    unfold Memory.cellsFor at hc
    split at hc
    · exact hr c hc
    · rcases List.mem_cons.mp hc with rfl | hc
      · exact hk
      · exact hr c hc
  induction m with
  | nil => exact hcells [] (by simp)
  | cons d m ih =>
    have hm := fun c hc => h c (List.mem_cons_of_mem d hc)
    unfold Memory.write
    split
    · exact hcells _ h
    split
    · exact hcells _ hm
    · intro c hc
      rcases List.mem_cons.mp hc with rfl | hc
      · exact h _ List.mem_cons_self
      · exact ih hm c hc

theorem wf_cellsFor (a : Nat) (v : Byte) (m : Memory) (hm : m.wf) (ha : a < memSize) (hlt : ∀ d ∈ m, a < d.1) :
    (Memory.cellsFor a v m).wf := by
  unfold Memory.cellsFor
  split
  · exact hm
  · next hv => exact wf_cons hm hlt ha hv

/-- A write keeps the canonical form. -/
theorem wf_write (m : Memory) (hm : m.wf) (a : Nat) (ha : a < memSize) (v : Byte) : (m.write a v).wf := by
  induction m with
  | nil => exact wf_cellsFor a v [] wf_nil ha (by simp)
  | cons c m ih =>
    obtain ⟨d, w⟩ := c
    have hlt := head_lt hm
    unfold Memory.write
    split
    · next h =>
      refine wf_cellsFor a v _ hm ha fun e he => ?_
      rcases List.mem_cons.mp he with rfl | he
      · exact h
      · exact h.trans (hlt e he)
    split
    · next h =>
      subst h
      exact wf_cellsFor a v _ (wf_tail hm) ha hlt
    · next h1 h2 =>
      have hda : d < a := by omega
      exact wf_cons (ih (wf_tail hm)) (mem_write_lt m a v d hda hlt) (hm.2 (d, w) List.mem_cons_self).1
        (hm.2 (d, w) List.mem_cons_self).2

/-! ### Several bytes -/

/-- Writing bytes inside memory keeps the canonical form. -/
theorem wf_writeBytes (bytes : List Byte) (m : Memory) (hm : m.wf) (a : Nat) (h : a + bytes.length ≤ memSize) :
    (m.writeBytes a bytes).wf := by
  induction bytes generalizing m a with
  | nil => exact hm
  | cons v vs ih =>
    simp only [List.length_cons] at h
    exact ih (m.write a v) (wf_write m hm a (by omega) v) (a + 1) (by omega)

/-- A read after writing bytes inside memory: the byte written there, the old byte everywhere else. -/
theorem read_writeBytes (bytes : List Byte) (m : Memory) (hm : m.wf) (a : Nat) (h : a + bytes.length ≤ memSize) (b : Nat) :
    (m.writeBytes a bytes).read b = if a ≤ b ∧ b < a + bytes.length then bytes.getD (b - a) 0 else m.read b := by
  induction bytes generalizing m a with
  | nil => simp [Memory.writeBytes, show ¬ (a ≤ b ∧ b < a) by omega]
  | cons v vs ih =>
    simp only [List.length_cons] at h ⊢
    rw [Memory.writeBytes, ih (m.write a v) (wf_write m hm a (by omega) v) (a + 1) (by omega), read_write m hm a v b]
    by_cases hb : b = a
    · subst hb
      simp
    · by_cases hin : a + 1 ≤ b ∧ b < a + 1 + vs.length
      · have h1 : b - a = (b - (a + 1)) + 1 := by omega
        rw [if_pos hin, if_pos (by omega), h1, List.getD_cons_succ]
      · rw [if_neg hin, if_neg hb, if_neg (by omega)]

/-- `n` bytes are read. -/
theorem length_readBytes (m : Memory) (a n : Nat) : (m.readBytes a n).length = n := by simp [Memory.readBytes]

theorem getElem_readBytes (m : Memory) (a n k : Nat) (h : k < (m.readBytes a n).length) :
    (m.readBytes a n)[k] = m.read (a + k) := by simp [Memory.readBytes]

/-! ### Ranges (20_memory.md R54) -/

theorem firstOutOfRange_none (a n : Nat) : firstOutOfRange a n = none ↔ n = 0 ∨ a + n ≤ memSize := by
  unfold firstOutOfRange
  split <;> simp <;> omega

theorem firstOutOfRange_some (a n bad : Nat) :
    firstOutOfRange a n = some bad ↔ 0 < n ∧ memSize < a + n ∧ bad = max a memSize := by
  unfold firstOutOfRange
  split
  · simp only [Option.some.injEq]; constructor <;> intro h <;> [refine ⟨?_, ?_, h.symm⟩; exact h.2.2.symm] <;> omega
  · simp; omega

end Sys2Proof.Laws
end

