-- ==== Sys2Proof/Laws/HostPort.lean ====
section
/-! SUPPORT. What reset and load do to memory, said once. -/

namespace Sys2Proof.Laws

open Sys2Proof.Machine

theorem length_font : font.length = 80 := rfl

/-- The fill that reset writes lies in memory. -/
theorem fill_fits (fill : List Byte) : font.length + (fill.take (memSize - font.length)).length ≤ memSize := by
  have h := List.length_take_le (memSize - font.length) fill
  have hf := length_font
  have hm : memSize = 4096 := rfl
  omega

/-- Memory after reset is in canonical form, whatever the fill. -/
theorem wf_memAfterReset (fill : List Byte) : (memAfterReset fill).wf :=
  wf_writeBytes _ [] wf_nil font.length (fill_fits fill)

/-- A load answers one of two results. -/
theorem load_cases (s : State) (stream : List Byte) :
    (progStart + stream.length ≤ memSize ∧
      s.load stream = (.ok, { s with mem := s.mem.writeBytes progStart stream })) ∨
    (memSize < progStart + stream.length ∧ s.load stream = (.loadOverflow, s)) := by
  have hm : memSize = 4096 := rfl
  have hp : progStart = 0x200 := rfl
  by_cases h : memSize - progStart < stream.length
  · exact .inr ⟨by omega, by rw [State.load, if_pos h]⟩
  · exact .inl ⟨by omega, by rw [State.load, if_neg h]⟩

/-- A load keeps the canonical form. -/
theorem wf_load (s : State) (stream : List Byte) (h : s.mem.wf) : (s.load stream).2.mem.wf := by
  rcases load_cases s stream with ⟨hfit, he⟩ | ⟨-, he⟩
  · rw [he]; exact wf_writeBytes stream s.mem h progStart hfit
  · rw [he]; exact h

end Sys2Proof.Laws
end

