-- ==== Sys2Proof/Laws/State.lean ====
section
/-! SUPPORT. One lemma per field per update of the state, so that no later proof unfolds a record update. -/

namespace Sys2Proof.Laws

open Sys2Proof.Machine

/-! ### setV -/

@[simp] theorem setV_v (s : State) (r : Reg) (b : Byte) : (s.setV r b).v = s.v.set r b := rfl
@[simp] theorem setV_i (s : State) (r : Reg) (b : Byte) : (s.setV r b).i = s.i := rfl
@[simp] theorem setV_pc (s : State) (r : Reg) (b : Byte) : (s.setV r b).pc = s.pc := rfl
@[simp] theorem setV_stack (s : State) (r : Reg) (b : Byte) : (s.setV r b).stack = s.stack := rfl
@[simp] theorem setV_sp (s : State) (r : Reg) (b : Byte) : (s.setV r b).sp = s.sp := rfl
@[simp] theorem setV_dt (s : State) (r : Reg) (b : Byte) : (s.setV r b).dt = s.dt := rfl
@[simp] theorem setV_st (s : State) (r : Reg) (b : Byte) : (s.setV r b).st = s.st := rfl
@[simp] theorem setV_key (s : State) (r : Reg) (b : Byte) : (s.setV r b).key = s.key := rfl
@[simp] theorem setV_mem (s : State) (r : Reg) (b : Byte) : (s.setV r b).mem = s.mem := rfl
@[simp] theorem setV_fb (s : State) (r : Reg) (b : Byte) : (s.setV r b).fb = s.fb := rfl
@[simp] theorem setV_runState (s : State) (r : Reg) (b : Byte) : (s.setV r b).runState = s.runState := rfl
@[simp] theorem setV_faultCode (s : State) (r : Reg) (b : Byte) : (s.setV r b).faultCode = s.faultCode := rfl
@[simp] theorem setV_faultPc (s : State) (r : Reg) (b : Byte) : (s.setV r b).faultPc = s.faultPc := rfl
@[simp] theorem setV_faultOp (s : State) (r : Reg) (b : Byte) : (s.setV r b).faultOp = s.faultOp := rfl
@[simp] theorem setV_faultAddr (s : State) (r : Reg) (b : Byte) : (s.setV r b).faultAddr = s.faultAddr := rfl
@[simp] theorem setV_redraws (s : State) (r : Reg) (b : Byte) : (s.setV r b).redraws = s.redraws := rfl
@[simp] theorem setV_keyFeed (s : State) (r : Reg) (b : Byte) : (s.setV r b).keyFeed = s.keyFeed := rfl
@[simp] theorem setV_rndFeed (s : State) (r : Reg) (b : Byte) : (s.setV r b).rndFeed = s.rndFeed := rfl
@[simp] theorem setV_delayFeed (s : State) (r : Reg) (b : Byte) : (s.setV r b).delayFeed = s.delayFeed := rfl
@[simp] theorem setV_soundFeed (s : State) (r : Reg) (b : Byte) : (s.setV r b).soundFeed = s.soundFeed := rfl

/-! ### finish -/

@[simp] theorem finish_v (s : State) (c : Control) : (s.finish c).v = s.v := rfl
@[simp] theorem finish_i (s : State) (c : Control) : (s.finish c).i = s.i := rfl
@[simp] theorem finish_pc (s : State) (c : Control) : (s.finish c).pc = c.newPc s.pc := rfl
@[simp] theorem finish_stack (s : State) (c : Control) : (s.finish c).stack = s.stack := rfl
@[simp] theorem finish_sp (s : State) (c : Control) : (s.finish c).sp = s.sp := rfl
@[simp] theorem finish_dt (s : State) (c : Control) : (s.finish c).dt = s.dt := rfl
@[simp] theorem finish_st (s : State) (c : Control) : (s.finish c).st = s.st := rfl
@[simp] theorem finish_key (s : State) (c : Control) : (s.finish c).key = s.key := rfl
@[simp] theorem finish_mem (s : State) (c : Control) : (s.finish c).mem = s.mem := rfl
@[simp] theorem finish_fb (s : State) (c : Control) : (s.finish c).fb = s.fb := rfl
@[simp] theorem finish_runState (s : State) (c : Control) : (s.finish c).runState = s.runState := rfl
@[simp] theorem finish_faultCode (s : State) (c : Control) : (s.finish c).faultCode = s.faultCode := rfl
@[simp] theorem finish_faultPc (s : State) (c : Control) : (s.finish c).faultPc = s.faultPc := rfl
@[simp] theorem finish_faultOp (s : State) (c : Control) : (s.finish c).faultOp = s.faultOp := rfl
@[simp] theorem finish_faultAddr (s : State) (c : Control) : (s.finish c).faultAddr = s.faultAddr := rfl
@[simp] theorem finish_redraws (s : State) (c : Control) : (s.finish c).redraws = s.redraws := rfl
@[simp] theorem finish_keyFeed (s : State) (c : Control) : (s.finish c).keyFeed = s.keyFeed := rfl
@[simp] theorem finish_rndFeed (s : State) (c : Control) : (s.finish c).rndFeed = s.rndFeed := rfl
@[simp] theorem finish_delayFeed (s : State) (c : Control) : (s.finish c).delayFeed = s.delayFeed := rfl
@[simp] theorem finish_soundFeed (s : State) (c : Control) : (s.finish c).soundFeed = s.soundFeed := rfl

/-! ### raise -/

@[simp] theorem raise_v (s : State) (f : FaultCode) (op : Word) (n : Nat) : (s.raise f op n).v = s.v := rfl
@[simp] theorem raise_i (s : State) (f : FaultCode) (op : Word) (n : Nat) : (s.raise f op n).i = s.i := rfl
@[simp] theorem raise_pc (s : State) (f : FaultCode) (op : Word) (n : Nat) : (s.raise f op n).pc = s.pc := rfl
@[simp] theorem raise_stack (s : State) (f : FaultCode) (op : Word) (n : Nat) : (s.raise f op n).stack = s.stack := rfl
@[simp] theorem raise_sp (s : State) (f : FaultCode) (op : Word) (n : Nat) : (s.raise f op n).sp = s.sp := rfl
@[simp] theorem raise_dt (s : State) (f : FaultCode) (op : Word) (n : Nat) : (s.raise f op n).dt = s.dt := rfl
@[simp] theorem raise_st (s : State) (f : FaultCode) (op : Word) (n : Nat) : (s.raise f op n).st = s.st := rfl
@[simp] theorem raise_key (s : State) (f : FaultCode) (op : Word) (n : Nat) : (s.raise f op n).key = s.key := rfl
@[simp] theorem raise_mem (s : State) (f : FaultCode) (op : Word) (n : Nat) : (s.raise f op n).mem = s.mem := rfl
@[simp] theorem raise_fb (s : State) (f : FaultCode) (op : Word) (n : Nat) : (s.raise f op n).fb = s.fb := rfl
@[simp] theorem raise_runState (s : State) (f : FaultCode) (op : Word) (n : Nat) : (s.raise f op n).runState = .faulted := rfl
@[simp] theorem raise_faultCode (s : State) (f : FaultCode) (op : Word) (n : Nat) : (s.raise f op n).faultCode = f := rfl
@[simp] theorem raise_faultPc (s : State) (f : FaultCode) (op : Word) (n : Nat) : (s.raise f op n).faultPc = s.pc := rfl
@[simp] theorem raise_faultOp (s : State) (f : FaultCode) (op : Word) (n : Nat) : (s.raise f op n).faultOp = op := rfl
@[simp] theorem raise_faultAddr (s : State) (f : FaultCode) (op : Word) (n : Nat) : (s.raise f op n).faultAddr = BitVec.ofNat 17 n := rfl
@[simp] theorem raise_redraws (s : State) (f : FaultCode) (op : Word) (n : Nat) : (s.raise f op n).redraws = s.redraws := rfl
@[simp] theorem raise_keyFeed (s : State) (f : FaultCode) (op : Word) (n : Nat) : (s.raise f op n).keyFeed = s.keyFeed := rfl
@[simp] theorem raise_rndFeed (s : State) (f : FaultCode) (op : Word) (n : Nat) : (s.raise f op n).rndFeed = s.rndFeed := rfl
@[simp] theorem raise_delayFeed (s : State) (f : FaultCode) (op : Word) (n : Nat) : (s.raise f op n).delayFeed = s.delayFeed := rfl
@[simp] theorem raise_soundFeed (s : State) (f : FaultCode) (op : Word) (n : Nat) : (s.raise f op n).soundFeed = s.soundFeed := rfl

/-! ### popStack -/

@[simp] theorem popStack_v (s : State) : (s.popStack).v = s.v := rfl
@[simp] theorem popStack_i (s : State) : (s.popStack).i = s.i := rfl
@[simp] theorem popStack_pc (s : State) : (s.popStack).pc = s.pc := rfl
@[simp] theorem popStack_stack (s : State) : (s.popStack).stack = s.stack := rfl
@[simp] theorem popStack_dt (s : State) : (s.popStack).dt = s.dt := rfl
@[simp] theorem popStack_st (s : State) : (s.popStack).st = s.st := rfl
@[simp] theorem popStack_key (s : State) : (s.popStack).key = s.key := rfl
@[simp] theorem popStack_mem (s : State) : (s.popStack).mem = s.mem := rfl
@[simp] theorem popStack_fb (s : State) : (s.popStack).fb = s.fb := rfl
@[simp] theorem popStack_runState (s : State) : (s.popStack).runState = s.runState := rfl
@[simp] theorem popStack_faultCode (s : State) : (s.popStack).faultCode = s.faultCode := rfl
@[simp] theorem popStack_faultPc (s : State) : (s.popStack).faultPc = s.faultPc := rfl
@[simp] theorem popStack_faultOp (s : State) : (s.popStack).faultOp = s.faultOp := rfl
@[simp] theorem popStack_faultAddr (s : State) : (s.popStack).faultAddr = s.faultAddr := rfl
@[simp] theorem popStack_redraws (s : State) : (s.popStack).redraws = s.redraws := rfl
@[simp] theorem popStack_keyFeed (s : State) : (s.popStack).keyFeed = s.keyFeed := rfl
@[simp] theorem popStack_rndFeed (s : State) : (s.popStack).rndFeed = s.rndFeed := rfl
@[simp] theorem popStack_delayFeed (s : State) : (s.popStack).delayFeed = s.delayFeed := rfl
@[simp] theorem popStack_soundFeed (s : State) : (s.popStack).soundFeed = s.soundFeed := rfl

/-! ### takeRnd -/

@[simp] theorem takeRnd_v (s : State) : (s.takeRnd).v = s.v := rfl
@[simp] theorem takeRnd_i (s : State) : (s.takeRnd).i = s.i := rfl
@[simp] theorem takeRnd_pc (s : State) : (s.takeRnd).pc = s.pc := rfl
@[simp] theorem takeRnd_stack (s : State) : (s.takeRnd).stack = s.stack := rfl
@[simp] theorem takeRnd_sp (s : State) : (s.takeRnd).sp = s.sp := rfl
@[simp] theorem takeRnd_dt (s : State) : (s.takeRnd).dt = s.dt := rfl
@[simp] theorem takeRnd_st (s : State) : (s.takeRnd).st = s.st := rfl
@[simp] theorem takeRnd_key (s : State) : (s.takeRnd).key = s.key := rfl
@[simp] theorem takeRnd_mem (s : State) : (s.takeRnd).mem = s.mem := rfl
@[simp] theorem takeRnd_fb (s : State) : (s.takeRnd).fb = s.fb := rfl
@[simp] theorem takeRnd_runState (s : State) : (s.takeRnd).runState = s.runState := rfl
@[simp] theorem takeRnd_faultCode (s : State) : (s.takeRnd).faultCode = s.faultCode := rfl
@[simp] theorem takeRnd_faultPc (s : State) : (s.takeRnd).faultPc = s.faultPc := rfl
@[simp] theorem takeRnd_faultOp (s : State) : (s.takeRnd).faultOp = s.faultOp := rfl
@[simp] theorem takeRnd_faultAddr (s : State) : (s.takeRnd).faultAddr = s.faultAddr := rfl
@[simp] theorem takeRnd_redraws (s : State) : (s.takeRnd).redraws = s.redraws := rfl
@[simp] theorem takeRnd_keyFeed (s : State) : (s.takeRnd).keyFeed = s.keyFeed := rfl
@[simp] theorem takeRnd_rndFeed (s : State) : (s.takeRnd).rndFeed = s.rndFeed.advance := rfl
@[simp] theorem takeRnd_delayFeed (s : State) : (s.takeRnd).delayFeed = s.delayFeed := rfl
@[simp] theorem takeRnd_soundFeed (s : State) : (s.takeRnd).soundFeed = s.soundFeed := rfl

/-! ### refresh -/

@[simp] theorem refresh_v (s : State) : (s.refresh).v = s.v := rfl
@[simp] theorem refresh_i (s : State) : (s.refresh).i = s.i := rfl
@[simp] theorem refresh_pc (s : State) : (s.refresh).pc = s.pc := rfl
@[simp] theorem refresh_stack (s : State) : (s.refresh).stack = s.stack := rfl
@[simp] theorem refresh_sp (s : State) : (s.refresh).sp = s.sp := rfl
@[simp] theorem refresh_dt (s : State) : (s.refresh).dt = s.dt := rfl
@[simp] theorem refresh_st (s : State) : (s.refresh).st = s.st := rfl
@[simp] theorem refresh_mem (s : State) : (s.refresh).mem = s.mem := rfl
@[simp] theorem refresh_fb (s : State) : (s.refresh).fb = s.fb := rfl
@[simp] theorem refresh_runState (s : State) : (s.refresh).runState = s.runState := rfl
@[simp] theorem refresh_faultCode (s : State) : (s.refresh).faultCode = s.faultCode := rfl
@[simp] theorem refresh_faultPc (s : State) : (s.refresh).faultPc = s.faultPc := rfl
@[simp] theorem refresh_faultOp (s : State) : (s.refresh).faultOp = s.faultOp := rfl
@[simp] theorem refresh_faultAddr (s : State) : (s.refresh).faultAddr = s.faultAddr := rfl
@[simp] theorem refresh_redraws (s : State) : (s.refresh).redraws = s.redraws := rfl
@[simp] theorem refresh_keyFeed (s : State) : (s.refresh).keyFeed = s.keyFeed.advance := rfl
@[simp] theorem refresh_rndFeed (s : State) : (s.refresh).rndFeed = s.rndFeed := rfl
@[simp] theorem refresh_delayFeed (s : State) : (s.refresh).delayFeed = s.delayFeed := rfl
@[simp] theorem refresh_soundFeed (s : State) : (s.refresh).soundFeed = s.soundFeed := rfl

/-! ### clearKey -/

@[simp] theorem clearKey_v (s : State) : (s.clearKey).v = s.v := rfl
@[simp] theorem clearKey_i (s : State) : (s.clearKey).i = s.i := rfl
@[simp] theorem clearKey_pc (s : State) : (s.clearKey).pc = s.pc := rfl
@[simp] theorem clearKey_stack (s : State) : (s.clearKey).stack = s.stack := rfl
@[simp] theorem clearKey_sp (s : State) : (s.clearKey).sp = s.sp := rfl
@[simp] theorem clearKey_dt (s : State) : (s.clearKey).dt = s.dt := rfl
@[simp] theorem clearKey_st (s : State) : (s.clearKey).st = s.st := rfl
@[simp] theorem clearKey_key (s : State) : (s.clearKey).key = none := rfl
@[simp] theorem clearKey_mem (s : State) : (s.clearKey).mem = s.mem := rfl
@[simp] theorem clearKey_fb (s : State) : (s.clearKey).fb = s.fb := rfl
@[simp] theorem clearKey_runState (s : State) : (s.clearKey).runState = s.runState := rfl
@[simp] theorem clearKey_faultCode (s : State) : (s.clearKey).faultCode = s.faultCode := rfl
@[simp] theorem clearKey_faultPc (s : State) : (s.clearKey).faultPc = s.faultPc := rfl
@[simp] theorem clearKey_faultOp (s : State) : (s.clearKey).faultOp = s.faultOp := rfl
@[simp] theorem clearKey_faultAddr (s : State) : (s.clearKey).faultAddr = s.faultAddr := rfl
@[simp] theorem clearKey_redraws (s : State) : (s.clearKey).redraws = s.redraws := rfl
@[simp] theorem clearKey_keyFeed (s : State) : (s.clearKey).keyFeed = s.keyFeed := rfl
@[simp] theorem clearKey_rndFeed (s : State) : (s.clearKey).rndFeed = s.rndFeed := rfl
@[simp] theorem clearKey_delayFeed (s : State) : (s.clearKey).delayFeed = s.delayFeed := rfl
@[simp] theorem clearKey_soundFeed (s : State) : (s.clearKey).soundFeed = s.soundFeed := rfl

/-! ### emitRedraw -/

@[simp] theorem emitRedraw_v (s : State) : (s.emitRedraw).v = s.v := rfl
@[simp] theorem emitRedraw_i (s : State) : (s.emitRedraw).i = s.i := rfl
@[simp] theorem emitRedraw_pc (s : State) : (s.emitRedraw).pc = s.pc := rfl
@[simp] theorem emitRedraw_stack (s : State) : (s.emitRedraw).stack = s.stack := rfl
@[simp] theorem emitRedraw_sp (s : State) : (s.emitRedraw).sp = s.sp := rfl
@[simp] theorem emitRedraw_dt (s : State) : (s.emitRedraw).dt = s.dt := rfl
@[simp] theorem emitRedraw_st (s : State) : (s.emitRedraw).st = s.st := rfl
@[simp] theorem emitRedraw_key (s : State) : (s.emitRedraw).key = s.key := rfl
@[simp] theorem emitRedraw_mem (s : State) : (s.emitRedraw).mem = s.mem := rfl
@[simp] theorem emitRedraw_fb (s : State) : (s.emitRedraw).fb = s.fb := rfl
@[simp] theorem emitRedraw_runState (s : State) : (s.emitRedraw).runState = s.runState := rfl
@[simp] theorem emitRedraw_faultCode (s : State) : (s.emitRedraw).faultCode = s.faultCode := rfl
@[simp] theorem emitRedraw_faultPc (s : State) : (s.emitRedraw).faultPc = s.faultPc := rfl
@[simp] theorem emitRedraw_faultOp (s : State) : (s.emitRedraw).faultOp = s.faultOp := rfl
@[simp] theorem emitRedraw_faultAddr (s : State) : (s.emitRedraw).faultAddr = s.faultAddr := rfl
@[simp] theorem emitRedraw_redraws (s : State) : (s.emitRedraw).redraws = s.redraws + 1 := rfl
@[simp] theorem emitRedraw_keyFeed (s : State) : (s.emitRedraw).keyFeed = s.keyFeed := rfl
@[simp] theorem emitRedraw_rndFeed (s : State) : (s.emitRedraw).rndFeed = s.rndFeed := rfl
@[simp] theorem emitRedraw_delayFeed (s : State) : (s.emitRedraw).delayFeed = s.delayFeed := rfl
@[simp] theorem emitRedraw_soundFeed (s : State) : (s.emitRedraw).soundFeed = s.soundFeed := rfl

/-! ### writeResultThenFlag -/

@[simp] theorem writeResultThenFlag_v (s : State) (x : Reg) (r : AluResult) : (s.writeResultThenFlag x r).v = (s.v.set x r.result).set vf r.flag := rfl
@[simp] theorem writeResultThenFlag_i (s : State) (x : Reg) (r : AluResult) : (s.writeResultThenFlag x r).i = s.i := rfl
@[simp] theorem writeResultThenFlag_pc (s : State) (x : Reg) (r : AluResult) : (s.writeResultThenFlag x r).pc = s.pc := rfl
@[simp] theorem writeResultThenFlag_stack (s : State) (x : Reg) (r : AluResult) : (s.writeResultThenFlag x r).stack = s.stack := rfl
@[simp] theorem writeResultThenFlag_sp (s : State) (x : Reg) (r : AluResult) : (s.writeResultThenFlag x r).sp = s.sp := rfl
@[simp] theorem writeResultThenFlag_dt (s : State) (x : Reg) (r : AluResult) : (s.writeResultThenFlag x r).dt = s.dt := rfl
@[simp] theorem writeResultThenFlag_st (s : State) (x : Reg) (r : AluResult) : (s.writeResultThenFlag x r).st = s.st := rfl
@[simp] theorem writeResultThenFlag_key (s : State) (x : Reg) (r : AluResult) : (s.writeResultThenFlag x r).key = s.key := rfl
@[simp] theorem writeResultThenFlag_mem (s : State) (x : Reg) (r : AluResult) : (s.writeResultThenFlag x r).mem = s.mem := rfl
@[simp] theorem writeResultThenFlag_fb (s : State) (x : Reg) (r : AluResult) : (s.writeResultThenFlag x r).fb = s.fb := rfl
@[simp] theorem writeResultThenFlag_runState (s : State) (x : Reg) (r : AluResult) : (s.writeResultThenFlag x r).runState = s.runState := rfl
@[simp] theorem writeResultThenFlag_faultCode (s : State) (x : Reg) (r : AluResult) : (s.writeResultThenFlag x r).faultCode = s.faultCode := rfl
@[simp] theorem writeResultThenFlag_faultPc (s : State) (x : Reg) (r : AluResult) : (s.writeResultThenFlag x r).faultPc = s.faultPc := rfl
@[simp] theorem writeResultThenFlag_faultOp (s : State) (x : Reg) (r : AluResult) : (s.writeResultThenFlag x r).faultOp = s.faultOp := rfl
@[simp] theorem writeResultThenFlag_faultAddr (s : State) (x : Reg) (r : AluResult) : (s.writeResultThenFlag x r).faultAddr = s.faultAddr := rfl
@[simp] theorem writeResultThenFlag_redraws (s : State) (x : Reg) (r : AluResult) : (s.writeResultThenFlag x r).redraws = s.redraws := rfl
@[simp] theorem writeResultThenFlag_keyFeed (s : State) (x : Reg) (r : AluResult) : (s.writeResultThenFlag x r).keyFeed = s.keyFeed := rfl
@[simp] theorem writeResultThenFlag_rndFeed (s : State) (x : Reg) (r : AluResult) : (s.writeResultThenFlag x r).rndFeed = s.rndFeed := rfl
@[simp] theorem writeResultThenFlag_delayFeed (s : State) (x : Reg) (r : AluResult) : (s.writeResultThenFlag x r).delayFeed = s.delayFeed := rfl
@[simp] theorem writeResultThenFlag_soundFeed (s : State) (x : Reg) (r : AluResult) : (s.writeResultThenFlag x r).soundFeed = s.soundFeed := rfl

/-! ### loadRegsUpTo -/

@[simp] theorem loadRegsUpTo_i (s : State) (x : Reg) (a : Nat) : (s.loadRegsUpTo x a).i = s.i := rfl
@[simp] theorem loadRegsUpTo_pc (s : State) (x : Reg) (a : Nat) : (s.loadRegsUpTo x a).pc = s.pc := rfl
@[simp] theorem loadRegsUpTo_stack (s : State) (x : Reg) (a : Nat) : (s.loadRegsUpTo x a).stack = s.stack := rfl
@[simp] theorem loadRegsUpTo_sp (s : State) (x : Reg) (a : Nat) : (s.loadRegsUpTo x a).sp = s.sp := rfl
@[simp] theorem loadRegsUpTo_dt (s : State) (x : Reg) (a : Nat) : (s.loadRegsUpTo x a).dt = s.dt := rfl
@[simp] theorem loadRegsUpTo_st (s : State) (x : Reg) (a : Nat) : (s.loadRegsUpTo x a).st = s.st := rfl
@[simp] theorem loadRegsUpTo_key (s : State) (x : Reg) (a : Nat) : (s.loadRegsUpTo x a).key = s.key := rfl
@[simp] theorem loadRegsUpTo_mem (s : State) (x : Reg) (a : Nat) : (s.loadRegsUpTo x a).mem = s.mem := rfl
@[simp] theorem loadRegsUpTo_fb (s : State) (x : Reg) (a : Nat) : (s.loadRegsUpTo x a).fb = s.fb := rfl
@[simp] theorem loadRegsUpTo_runState (s : State) (x : Reg) (a : Nat) : (s.loadRegsUpTo x a).runState = s.runState := rfl
@[simp] theorem loadRegsUpTo_faultCode (s : State) (x : Reg) (a : Nat) : (s.loadRegsUpTo x a).faultCode = s.faultCode := rfl
@[simp] theorem loadRegsUpTo_faultPc (s : State) (x : Reg) (a : Nat) : (s.loadRegsUpTo x a).faultPc = s.faultPc := rfl
@[simp] theorem loadRegsUpTo_faultOp (s : State) (x : Reg) (a : Nat) : (s.loadRegsUpTo x a).faultOp = s.faultOp := rfl
@[simp] theorem loadRegsUpTo_faultAddr (s : State) (x : Reg) (a : Nat) : (s.loadRegsUpTo x a).faultAddr = s.faultAddr := rfl
@[simp] theorem loadRegsUpTo_redraws (s : State) (x : Reg) (a : Nat) : (s.loadRegsUpTo x a).redraws = s.redraws := rfl
@[simp] theorem loadRegsUpTo_keyFeed (s : State) (x : Reg) (a : Nat) : (s.loadRegsUpTo x a).keyFeed = s.keyFeed := rfl
@[simp] theorem loadRegsUpTo_rndFeed (s : State) (x : Reg) (a : Nat) : (s.loadRegsUpTo x a).rndFeed = s.rndFeed := rfl
@[simp] theorem loadRegsUpTo_delayFeed (s : State) (x : Reg) (a : Nat) : (s.loadRegsUpTo x a).delayFeed = s.delayFeed := rfl
@[simp] theorem loadRegsUpTo_soundFeed (s : State) (x : Reg) (a : Nat) : (s.loadRegsUpTo x a).soundFeed = s.soundFeed := rfl

/-! ### tickDelay -/

@[simp] theorem tickDelay_v (s : State) : (s.tickDelay).v = s.v := rfl
@[simp] theorem tickDelay_i (s : State) : (s.tickDelay).i = s.i := rfl
@[simp] theorem tickDelay_pc (s : State) : (s.tickDelay).pc = s.pc := rfl
@[simp] theorem tickDelay_stack (s : State) : (s.tickDelay).stack = s.stack := rfl
@[simp] theorem tickDelay_sp (s : State) : (s.tickDelay).sp = s.sp := rfl
@[simp] theorem tickDelay_dt (s : State) : (s.tickDelay).dt = tickTimer s.dt := rfl
@[simp] theorem tickDelay_st (s : State) : (s.tickDelay).st = s.st := rfl
@[simp] theorem tickDelay_key (s : State) : (s.tickDelay).key = s.key := rfl
@[simp] theorem tickDelay_mem (s : State) : (s.tickDelay).mem = s.mem := rfl
@[simp] theorem tickDelay_fb (s : State) : (s.tickDelay).fb = s.fb := rfl
@[simp] theorem tickDelay_runState (s : State) : (s.tickDelay).runState = s.runState := rfl
@[simp] theorem tickDelay_faultCode (s : State) : (s.tickDelay).faultCode = s.faultCode := rfl
@[simp] theorem tickDelay_faultPc (s : State) : (s.tickDelay).faultPc = s.faultPc := rfl
@[simp] theorem tickDelay_faultOp (s : State) : (s.tickDelay).faultOp = s.faultOp := rfl
@[simp] theorem tickDelay_faultAddr (s : State) : (s.tickDelay).faultAddr = s.faultAddr := rfl
@[simp] theorem tickDelay_redraws (s : State) : (s.tickDelay).redraws = s.redraws := rfl
@[simp] theorem tickDelay_keyFeed (s : State) : (s.tickDelay).keyFeed = s.keyFeed := rfl
@[simp] theorem tickDelay_rndFeed (s : State) : (s.tickDelay).rndFeed = s.rndFeed := rfl
@[simp] theorem tickDelay_delayFeed (s : State) : (s.tickDelay).delayFeed = s.delayFeed := rfl
@[simp] theorem tickDelay_soundFeed (s : State) : (s.tickDelay).soundFeed = s.soundFeed := rfl

/-! ### tickSound -/

@[simp] theorem tickSound_v (s : State) : (s.tickSound).v = s.v := rfl
@[simp] theorem tickSound_i (s : State) : (s.tickSound).i = s.i := rfl
@[simp] theorem tickSound_pc (s : State) : (s.tickSound).pc = s.pc := rfl
@[simp] theorem tickSound_stack (s : State) : (s.tickSound).stack = s.stack := rfl
@[simp] theorem tickSound_sp (s : State) : (s.tickSound).sp = s.sp := rfl
@[simp] theorem tickSound_dt (s : State) : (s.tickSound).dt = s.dt := rfl
@[simp] theorem tickSound_st (s : State) : (s.tickSound).st = tickTimer s.st := rfl
@[simp] theorem tickSound_key (s : State) : (s.tickSound).key = s.key := rfl
@[simp] theorem tickSound_mem (s : State) : (s.tickSound).mem = s.mem := rfl
@[simp] theorem tickSound_fb (s : State) : (s.tickSound).fb = s.fb := rfl
@[simp] theorem tickSound_runState (s : State) : (s.tickSound).runState = s.runState := rfl
@[simp] theorem tickSound_faultCode (s : State) : (s.tickSound).faultCode = s.faultCode := rfl
@[simp] theorem tickSound_faultPc (s : State) : (s.tickSound).faultPc = s.faultPc := rfl
@[simp] theorem tickSound_faultOp (s : State) : (s.tickSound).faultOp = s.faultOp := rfl
@[simp] theorem tickSound_faultAddr (s : State) : (s.tickSound).faultAddr = s.faultAddr := rfl
@[simp] theorem tickSound_redraws (s : State) : (s.tickSound).redraws = s.redraws := rfl
@[simp] theorem tickSound_keyFeed (s : State) : (s.tickSound).keyFeed = s.keyFeed := rfl
@[simp] theorem tickSound_rndFeed (s : State) : (s.tickSound).rndFeed = s.rndFeed := rfl
@[simp] theorem tickSound_delayFeed (s : State) : (s.tickSound).delayFeed = s.delayFeed := rfl
@[simp] theorem tickSound_soundFeed (s : State) : (s.tickSound).soundFeed = s.soundFeed := rfl

/-! ### ticksBetweenSteps -/

@[simp] theorem ticksBetweenSteps_v (s : State) : (s.ticksBetweenSteps).v = s.v := rfl
@[simp] theorem ticksBetweenSteps_i (s : State) : (s.ticksBetweenSteps).i = s.i := rfl
@[simp] theorem ticksBetweenSteps_pc (s : State) : (s.ticksBetweenSteps).pc = s.pc := rfl
@[simp] theorem ticksBetweenSteps_stack (s : State) : (s.ticksBetweenSteps).stack = s.stack := rfl
@[simp] theorem ticksBetweenSteps_sp (s : State) : (s.ticksBetweenSteps).sp = s.sp := rfl
@[simp] theorem ticksBetweenSteps_dt (s : State) : (s.ticksBetweenSteps).dt = tickTimes s.delayTicksDue s.dt := rfl
@[simp] theorem ticksBetweenSteps_st (s : State) : (s.ticksBetweenSteps).st = tickTimes s.soundTicksDue s.st := rfl
@[simp] theorem ticksBetweenSteps_key (s : State) : (s.ticksBetweenSteps).key = s.key := rfl
@[simp] theorem ticksBetweenSteps_mem (s : State) : (s.ticksBetweenSteps).mem = s.mem := rfl
@[simp] theorem ticksBetweenSteps_fb (s : State) : (s.ticksBetweenSteps).fb = s.fb := rfl
@[simp] theorem ticksBetweenSteps_runState (s : State) : (s.ticksBetweenSteps).runState = s.runState := rfl
@[simp] theorem ticksBetweenSteps_faultCode (s : State) : (s.ticksBetweenSteps).faultCode = s.faultCode := rfl
@[simp] theorem ticksBetweenSteps_faultPc (s : State) : (s.ticksBetweenSteps).faultPc = s.faultPc := rfl
@[simp] theorem ticksBetweenSteps_faultOp (s : State) : (s.ticksBetweenSteps).faultOp = s.faultOp := rfl
@[simp] theorem ticksBetweenSteps_faultAddr (s : State) : (s.ticksBetweenSteps).faultAddr = s.faultAddr := rfl
@[simp] theorem ticksBetweenSteps_redraws (s : State) : (s.ticksBetweenSteps).redraws = s.redraws := rfl
@[simp] theorem ticksBetweenSteps_keyFeed (s : State) : (s.ticksBetweenSteps).keyFeed = s.keyFeed := rfl
@[simp] theorem ticksBetweenSteps_rndFeed (s : State) : (s.ticksBetweenSteps).rndFeed = s.rndFeed := rfl
@[simp] theorem ticksBetweenSteps_delayFeed (s : State) : (s.ticksBetweenSteps).delayFeed = s.delayFeed.advance := rfl
@[simp] theorem ticksBetweenSteps_soundFeed (s : State) : (s.ticksBetweenSteps).soundFeed = s.soundFeed.advance := rfl

/-! ### pushStack, which changes the stack and its pointer only -/

@[simp] theorem pushStack_v (s : State) (w : Word) : (s.pushStack w).v = s.v := by
  unfold State.pushStack; split <;> rfl
@[simp] theorem pushStack_i (s : State) (w : Word) : (s.pushStack w).i = s.i := by
  unfold State.pushStack; split <;> rfl
@[simp] theorem pushStack_pc (s : State) (w : Word) : (s.pushStack w).pc = s.pc := by
  unfold State.pushStack; split <;> rfl
@[simp] theorem pushStack_dt (s : State) (w : Word) : (s.pushStack w).dt = s.dt := by
  unfold State.pushStack; split <;> rfl
@[simp] theorem pushStack_st (s : State) (w : Word) : (s.pushStack w).st = s.st := by
  unfold State.pushStack; split <;> rfl
@[simp] theorem pushStack_key (s : State) (w : Word) : (s.pushStack w).key = s.key := by
  unfold State.pushStack; split <;> rfl
@[simp] theorem pushStack_mem (s : State) (w : Word) : (s.pushStack w).mem = s.mem := by
  unfold State.pushStack; split <;> rfl
@[simp] theorem pushStack_fb (s : State) (w : Word) : (s.pushStack w).fb = s.fb := by
  unfold State.pushStack; split <;> rfl
@[simp] theorem pushStack_runState (s : State) (w : Word) : (s.pushStack w).runState = s.runState := by
  unfold State.pushStack; split <;> rfl
@[simp] theorem pushStack_faultCode (s : State) (w : Word) : (s.pushStack w).faultCode = s.faultCode := by
  unfold State.pushStack; split <;> rfl
@[simp] theorem pushStack_faultPc (s : State) (w : Word) : (s.pushStack w).faultPc = s.faultPc := by
  unfold State.pushStack; split <;> rfl
@[simp] theorem pushStack_faultOp (s : State) (w : Word) : (s.pushStack w).faultOp = s.faultOp := by
  unfold State.pushStack; split <;> rfl
@[simp] theorem pushStack_faultAddr (s : State) (w : Word) : (s.pushStack w).faultAddr = s.faultAddr := by
  unfold State.pushStack; split <;> rfl
@[simp] theorem pushStack_redraws (s : State) (w : Word) : (s.pushStack w).redraws = s.redraws := by
  unfold State.pushStack; split <;> rfl
@[simp] theorem pushStack_keyFeed (s : State) (w : Word) : (s.pushStack w).keyFeed = s.keyFeed := by
  unfold State.pushStack; split <;> rfl
@[simp] theorem pushStack_rndFeed (s : State) (w : Word) : (s.pushStack w).rndFeed = s.rndFeed := by
  unfold State.pushStack; split <;> rfl
@[simp] theorem pushStack_delayFeed (s : State) (w : Word) : (s.pushStack w).delayFeed = s.delayFeed := by
  unfold State.pushStack; split <;> rfl
@[simp] theorem pushStack_soundFeed (s : State) (w : Word) : (s.pushStack w).soundFeed = s.soundFeed := by
  unfold State.pushStack; split <;> rfl
end Sys2Proof.Laws
end

