-- ==== Sys2Proof/Laws/Ops.lean ====
section
/-! SUPPORT. One lemma per shared operation that says what it does. -/

namespace Sys2Proof.Laws

open Sys2Proof.Machine

/-! ### Registers -/

theorem getV_setV (s : State) (r q : Reg) (b : Byte) : (s.setV r b).getV q = if q = r then b else s.getV q := by
  simp only [State.getV, State.setV, Fin.getElem_fin, Vector.getElem_set, Fin.ext_iff]
  simp [eq_comm]

@[simp] theorem getV_setV_self (s : State) (r : Reg) (b : Byte) : (s.setV r b).getV r = b := by simp [getV_setV]

theorem getV_setV_ne (s : State) {r q : Reg} (b : Byte) (h : q ≠ r) : (s.setV r b).getV q = s.getV q := by
  simp [getV_setV, h]

@[simp] theorem getV_finish (s : State) (c : Control) (q : Reg) : (s.finish c).getV q = s.getV q := rfl

@[simp] theorem getV_raise (s : State) (f : FaultCode) (op : Word) (n : Nat) (q : Reg) :
    (s.raise f op n).getV q = s.getV q := rfl

@[simp] theorem getV_refresh (s : State) (q : Reg) : s.refresh.getV q = s.getV q := rfl

@[simp] theorem getV_takeRnd (s : State) (q : Reg) : s.takeRnd.getV q = s.getV q := rfl

@[simp] theorem getV_clearKey (s : State) (q : Reg) : s.clearKey.getV q = s.getV q := rfl

@[simp] theorem getV_emitRedraw (s : State) (q : Reg) : s.emitRedraw.getV q = s.getV q := rfl

/-- Result and flag: the flag is what `VF` holds in the end, for `x = F` too. -/
theorem getV_writeResultThenFlag (s : State) (x : Reg) (r : AluResult) (q : Reg) :
    (s.writeResultThenFlag x r).getV q = if q = vf then r.flag else if q = x then r.result else s.getV q := by
  simp only [State.writeResultThenFlag, getV_setV]

/-- The registers up to `x` come from memory, the others stay. -/
theorem getV_loadRegsUpTo (s : State) (x : Reg) (a : Nat) (q : Reg) :
    (s.loadRegsUpTo x a).getV q = if q ≤ x then s.mem.read (a + q.val) else s.getV q := by
  simp [State.loadRegsUpTo, State.getV]

theorem length_regsUpTo (s : State) (x : Reg) : (s.regsUpTo x).length = x.val + 1 := by
  have := x.isLt
  simp only [State.regsUpTo, List.length_take, Vector.length_toList]
  omega

theorem getElem_regsUpTo (s : State) (x : Reg) (k : Nat) (h : k < (s.regsUpTo x).length) :
    (s.regsUpTo x)[k] = s.getV ⟨k, by rw [length_regsUpTo] at h; omega⟩ := by
  simp [State.regsUpTo, State.getV]

/-! ### Control-flow classes (40_step_cycle.md R103) -/

@[simp] theorem newPc_next (pc : Word) : Control.newPc pc .next = pc + 2 := by
  apply BitVec.eq_of_toNat_eq
  simp [Control.newPc, BitVec.toNat_add]

@[simp] theorem newPc_skip (pc : Word) : Control.newPc pc .skip = pc + 4 := by
  apply BitVec.eq_of_toNat_eq
  simp [Control.newPc, BitVec.toNat_add]

@[simp] theorem newPc_jump (pc : Word) (a : Nat) : Control.newPc pc (.jump a) = BitVec.ofNat 16 a := rfl

@[simp] theorem newPc_jump_toNat (pc w : Word) : Control.newPc pc (.jump w.toNat) = w := by simp

theorem newPc_skipIf (pc : Word) (b : Bool) : Control.newPc pc (skipIf b) = if b then pc + 4 else pc + 2 := by
  cases b <;> simp [skipIf]

/-! ### The range check (20_memory.md R54) -/

theorem ifInRange_ok (s t : State) (a n : Nat) (op : Word) (h : n = 0 ∨ a + n ≤ memSize) : s.ifInRange a n op t = t := by
  rw [State.ifInRange, (firstOutOfRange_none a n).mpr h]

theorem ifInRange_fault (s t : State) (a n : Nat) (op : Word) (h : 0 < n) (h' : memSize < a + n) :
    s.ifInRange a n op t = s.raise .memRange op (max a memSize) := by
  rw [State.ifInRange, (firstOutOfRange_some a n _).mpr ⟨h, h', rfl⟩]

/-- The range check answers one of two states. -/
theorem ifInRange_cases (s t : State) (a n : Nat) (op : Word) :
    ((n = 0 ∨ a + n ≤ memSize) ∧ s.ifInRange a n op t = t) ∨
    (0 < n ∧ memSize < a + n ∧ s.ifInRange a n op t = s.raise .memRange op (max a memSize)) := by
  by_cases h : n = 0 ∨ a + n ≤ memSize
  · exact .inl ⟨h, ifInRange_ok s t a n op h⟩
  · refine .inr ⟨by omega, by omega, ifInRange_fault s t a n op (by omega) (by omega)⟩

/-! ### The call stack (10_state.md R27, R28) -/

theorem pushStack_of_lt (s : State) (w : Word) (h : s.sp.val < 16) :
    s.pushStack w = { s with stack := s.stack.set s.sp.val w h, sp := ⟨s.sp.val + 1, by omega⟩ } := by
  rw [State.pushStack, dif_pos h]

@[simp] theorem val_sp_popStack (s : State) : s.popStack.sp.val = s.sp.val - 1 := rfl

theorem val_sp_pushStack (s : State) (w : Word) (h : s.sp.val < 16) : (s.pushStack w).sp.val = s.sp.val + 1 := by
  rw [pushStack_of_lt s w h]

theorem stackTop_pushStack (s : State) (w : Word) (h : s.sp.val < 16) : (s.pushStack w).stackTop = w := by
  rw [pushStack_of_lt s w h]
  simp [State.stackTop]

@[simp] theorem returnAddr_eq (s : State) : s.returnAddr = s.pc + 2 := newPc_next s.pc

/-! ### The key latch (45_keypad_timers.md R171, R172) -/

theorem refresh_key (s : State) : s.refresh.key = s.keyIn.or s.key := by
  unfold State.refresh
  cases s.keyIn <;> rfl

theorem keyMatches_iff (s : State) (x : Reg) : s.keyMatches x = true ↔ ∃ k, s.key = some k ∧ zextKey k = s.getV x := by
  unfold State.keyMatches
  cases s.key <;> simp

/-! ### Feeds -/

@[simp] theorem peek_cons {α : Type} (free : Nat → α) (a : α) (q : List α) (n : Nat) :
    Feed.peek free { queued := a :: q, taken := n } = a := rfl

@[simp] theorem peek_nil {α : Type} (free : Nat → α) (n : Nat) :
    Feed.peek free { queued := [], taken := n } = free n := rfl

@[simp] theorem advance_cons {α : Type} (a : α) (q : List α) (n : Nat) :
    Feed.advance { queued := a :: q, taken := n } = { queued := q, taken := n + 1 } := rfl

/-! ### Timer ticks (60_exceptions.md R195, R197) -/

theorem tickTimer_toNat (t : Byte) : (tickTimer t).toNat = t.toNat - 1 := by
  have := t.isLt
  unfold tickTimer
  split
  · next h => subst h; rfl
  · simp; omega

/-- The ticks between two steps count a timer down to the floor 0. -/
theorem tickTimes_toNat (n : Nat) (t : Byte) : (tickTimes n t).toNat = t.toNat - n := by
  have := t.isLt
  unfold tickTimes
  split
  · next h => subst h; simp
  · simp; omega

end Sys2Proof.Laws
end

