-- ==== Sys2Proof/Laws/PerInstr.lean ====
section
/-! SUPPORT. Facts about each instruction as syntax, one lemma per constructor. -/

namespace Sys2Proof.Laws.TableRow

open Sys2Proof

/-- The mask and match values of an instruction's row (30_encoding.md R84). -/
def row : Instr → Word × Word
  | .cls => (0xFFFF, 0x00E0)
  | .ret => (0xFFFF, 0x00EE)
  | .jp _ => (0xF000, 0x1000)
  | .call _ => (0xF000, 0x2000)
  | .seVxKk _ _ => (0xF000, 0x3000)
  | .sneVxKk _ _ => (0xF000, 0x4000)
  | .seVxVy _ _ => (0xF00F, 0x5000)
  | .ldVxKk _ _ => (0xF000, 0x6000)
  | .addVxKk _ _ => (0xF000, 0x7000)
  | .ldVxVy _ _ => (0xF00F, 0x8000)
  | .orVxVy _ _ => (0xF00F, 0x8001)
  | .andVxVy _ _ => (0xF00F, 0x8002)
  | .xorVxVy _ _ => (0xF00F, 0x8003)
  | .addVxVy _ _ => (0xF00F, 0x8004)
  | .subVxVy _ _ => (0xF00F, 0x8005)
  | .shrVx _ _ => (0xF00F, 0x8006)
  | .subnVxVy _ _ => (0xF00F, 0x8007)
  | .shlVx _ _ => (0xF00F, 0x800E)
  | .sneVxVy _ _ => (0xF00F, 0x9000)
  | .ldINnn _ => (0xF000, 0xA000)
  | .jpV0Nnn _ => (0xF000, 0xB000)
  | .rndVxKk _ _ => (0xF000, 0xC000)
  | .drwVxVyN _ _ _ => (0xF000, 0xD000)
  | .skpVx _ => (0xF0FF, 0xE09E)
  | .sknpVx _ => (0xF0FF, 0xE0A1)
  | .ldVxDt _ => (0xF0FF, 0xF007)
  | .ldVxK _ => (0xF0FF, 0xF00A)
  | .ldDtVx _ => (0xF0FF, 0xF015)
  | .ldStVx _ => (0xF0FF, 0xF018)
  | .addIVx _ => (0xF0FF, 0xF01E)
  | .ldFVx _ => (0xF0FF, 0xF029)
  | .ldBVx _ => (0xF0FF, 0xF033)
  | .ldMemVx _ => (0xF0FF, 0xF055)
  | .ldVxMem _ => (0xF0FF, 0xF065)

/-- An instruction's word carries its row's fixed bits. -/
abbrev Statement (i : Instr) : Prop := encode i &&& (row i).1 = (row i).2

theorem cls : Statement .cls := by decide

theorem ret : Statement .ret := by decide

theorem jp (nnn : Addr12) : Statement (.jp nnn) := by
  simp only [Statement, encode, row, and_maskO1, fieldO1_formatA]
  rfl

theorem call (nnn : Addr12) : Statement (.call nnn) := by
  simp only [Statement, encode, row, and_maskO1, fieldO1_formatA]
  rfl

theorem seVxKk (x : Reg) (kk : Byte) : Statement (.seVxKk x kk) := by
  simp only [Statement, encode, row, and_maskO1, fieldO1_formatXK]
  rfl

theorem sneVxKk (x : Reg) (kk : Byte) : Statement (.sneVxKk x kk) := by
  simp only [Statement, encode, row, and_maskO1, fieldO1_formatXK]
  rfl

theorem seVxVy (x y : Reg) : Statement (.seVxVy x y) := by
  simp only [Statement, encode, row, and_maskXY, fieldO1_formatXY, fieldO4_formatXY]
  rfl

theorem ldVxKk (x : Reg) (kk : Byte) : Statement (.ldVxKk x kk) := by
  simp only [Statement, encode, row, and_maskO1, fieldO1_formatXK]
  rfl

theorem addVxKk (x : Reg) (kk : Byte) : Statement (.addVxKk x kk) := by
  simp only [Statement, encode, row, and_maskO1, fieldO1_formatXK]
  rfl

theorem ldVxVy (x y : Reg) : Statement (.ldVxVy x y) := by
  simp only [Statement, encode, row, and_maskXY, fieldO1_formatXY, fieldO4_formatXY]
  rfl

theorem orVxVy (x y : Reg) : Statement (.orVxVy x y) := by
  simp only [Statement, encode, row, and_maskXY, fieldO1_formatXY, fieldO4_formatXY]
  rfl

theorem andVxVy (x y : Reg) : Statement (.andVxVy x y) := by
  simp only [Statement, encode, row, and_maskXY, fieldO1_formatXY, fieldO4_formatXY]
  rfl

theorem xorVxVy (x y : Reg) : Statement (.xorVxVy x y) := by
  simp only [Statement, encode, row, and_maskXY, fieldO1_formatXY, fieldO4_formatXY]
  rfl

theorem addVxVy (x y : Reg) : Statement (.addVxVy x y) := by
  simp only [Statement, encode, row, and_maskXY, fieldO1_formatXY, fieldO4_formatXY]
  rfl

theorem subVxVy (x y : Reg) : Statement (.subVxVy x y) := by
  simp only [Statement, encode, row, and_maskXY, fieldO1_formatXY, fieldO4_formatXY]
  rfl

theorem shrVx (x y : Reg) : Statement (.shrVx x y) := by
  simp only [Statement, encode, row, and_maskXY, fieldO1_formatXY, fieldO4_formatXY]
  rfl

theorem subnVxVy (x y : Reg) : Statement (.subnVxVy x y) := by
  simp only [Statement, encode, row, and_maskXY, fieldO1_formatXY, fieldO4_formatXY]
  rfl

theorem shlVx (x y : Reg) : Statement (.shlVx x y) := by
  simp only [Statement, encode, row, and_maskXY, fieldO1_formatXY, fieldO4_formatXY]
  rfl

theorem sneVxVy (x y : Reg) : Statement (.sneVxVy x y) := by
  simp only [Statement, encode, row, and_maskXY, fieldO1_formatXY, fieldO4_formatXY]
  rfl

theorem ldINnn (nnn : Addr12) : Statement (.ldINnn nnn) := by
  simp only [Statement, encode, row, and_maskO1, fieldO1_formatA]
  rfl

theorem jpV0Nnn (nnn : Addr12) : Statement (.jpV0Nnn nnn) := by
  simp only [Statement, encode, row, and_maskO1, fieldO1_formatA]
  rfl

theorem rndVxKk (x : Reg) (kk : Byte) : Statement (.rndVxKk x kk) := by
  simp only [Statement, encode, row, and_maskO1, fieldO1_formatXK]
  rfl

theorem drwVxVyN (x y : Reg) (n : Nat) : Statement (.drwVxVyN x y n) := by
  simp only [Statement, encode, row, and_maskO1, fieldO1_formatXY]
  rfl

theorem skpVx (x : Reg) : Statement (.skpVx x) := by
  simp only [Statement, encode, row, and_maskX, fieldO1_formatXK, fieldKk_formatXK]
  rfl

theorem sknpVx (x : Reg) : Statement (.sknpVx x) := by
  simp only [Statement, encode, row, and_maskX, fieldO1_formatXK, fieldKk_formatXK]
  rfl

theorem ldVxDt (x : Reg) : Statement (.ldVxDt x) := by
  simp only [Statement, encode, row, and_maskX, fieldO1_formatXK, fieldKk_formatXK]
  rfl

theorem ldVxK (x : Reg) : Statement (.ldVxK x) := by
  simp only [Statement, encode, row, and_maskX, fieldO1_formatXK, fieldKk_formatXK]
  rfl

theorem ldDtVx (x : Reg) : Statement (.ldDtVx x) := by
  simp only [Statement, encode, row, and_maskX, fieldO1_formatXK, fieldKk_formatXK]
  rfl

theorem ldStVx (x : Reg) : Statement (.ldStVx x) := by
  simp only [Statement, encode, row, and_maskX, fieldO1_formatXK, fieldKk_formatXK]
  rfl

theorem addIVx (x : Reg) : Statement (.addIVx x) := by
  simp only [Statement, encode, row, and_maskX, fieldO1_formatXK, fieldKk_formatXK]
  rfl

theorem ldFVx (x : Reg) : Statement (.ldFVx x) := by
  simp only [Statement, encode, row, and_maskX, fieldO1_formatXK, fieldKk_formatXK]
  rfl

theorem ldBVx (x : Reg) : Statement (.ldBVx x) := by
  simp only [Statement, encode, row, and_maskX, fieldO1_formatXK, fieldKk_formatXK]
  rfl

theorem ldMemVx (x : Reg) : Statement (.ldMemVx x) := by
  simp only [Statement, encode, row, and_maskX, fieldO1_formatXK, fieldKk_formatXK]
  rfl

theorem ldVxMem (x : Reg) : Statement (.ldVxMem x) := by
  simp only [Statement, encode, row, and_maskX, fieldO1_formatXK, fieldKk_formatXK]
  rfl

end Sys2Proof.Laws.TableRow
end

