-- ==== Sys2Proof/Laws/Step.lean ====
section
/-! SUPPORT. What a step can do, said once. -/

namespace Sys2Proof.Laws

open Sys2Proof.Machine Sys2Proof.Safety

/-- The four things the engine's step can do (40_step_cycle.md R101). -/
theorem engineStep_cases (s : State) :
    (s.runState = .faulted ∧ engineStep s = .next s) ∨
    (s.runState = .running ∧ haltLimit ≤ s.pc.toNat ∧ engineStep s = .next s) ∨
    (s.runState = .running ∧ s.pc.toNat < haltLimit ∧ (∃ e, decode s.fetch = .error e) ∧
      engineStep s = .next (s.raise .decodeFailure s.fetch 0)) ∨
    (s.runState = .running ∧ s.pc.toNat < haltLimit ∧ ∃ i, decode s.fetch = .ok i ∧ engineStep s = exec i s) := by
  rcases hr : s.runState with _ | _
  · by_cases hp : haltLimit ≤ s.pc.toNat
    · exact .inr (.inl ⟨rfl, hp, by simp [engineStep, hr, State.atHaltLimit, hp]⟩)
    · have hstep : engineStep s = s.executeFetched := by simp [engineStep, hr, State.atHaltLimit, hp]
      rcases hd : decode s.fetch with e | i
      · exact .inr (.inr (.inl ⟨rfl, by omega, ⟨e, rfl⟩, by rw [hstep, State.executeFetched, hd]⟩))
      · exact .inr (.inr (.inr ⟨rfl, by omega, i, rfl, by rw [hstep, State.executeFetched, hd]⟩))
  · exact .inl ⟨rfl, by simp [engineStep, hr]⟩

/-- A machine step that answers a state is an engine step and the ticks after it. -/
theorem step_next (s t : State) : step s = .next t ↔ ∃ u, engineStep s = .next u ∧ t = u.ticksBetweenSteps := by
  unfold step stepThenTicks
  cases engineStep s <;> simp [onNext, eq_comm]

/-- The word at PC is its two bytes, the one at the lower address being the high byte (20_memory.md R51). -/
theorem fetch_toNat (s : State) :
    s.fetch.toNat = (s.mem.read s.pc.toNat).toNat * 256 + (s.mem.read (s.pc.toNat + 1)).toNat := by
  unfold State.fetch Memory.readWord wordOfBytes
  simp only [BitVec.toNat_append]
  rw [← Nat.shiftLeft_add_eq_or_of_lt (BitVec.isLt _), Nat.shiftLeft_eq]

theorem runsTo_zero (s t : State) : RunsTo 0 s t ↔ s = t :=
  ⟨fun h => Host.Outcome.next.inj h, fun h => congrArg Host.Outcome.next h⟩

/-- One step more: the run goes on from the step's state. -/
theorem runsTo_succ (n : Nat) (s t u : State) (h : step s = .next u) : RunsTo (n + 1) s t ↔ RunsTo n u t := by
  have hstep : core.step s = .next u := h
  simp only [RunsTo, Host.Core.run, hstep]

end Sys2Proof.Laws
end

