-- ==== Sys2Proof/Laws/Timers.lean ====
section
/-! SUPPORT. The free tick schedules are exactly the fair ones (60_exceptions.md R197). -/

namespace Sys2Proof.Laws

open Sys2Proof.Machine

theorem tickCursor_succ_burst {pause : Nat → Nat} {n k : Nat} (h : tickCursor pause n = (k, 0)) :
    tickCursor pause (n + 1) = (k + 1, pause (k + 1)) := by
  simp only [tickCursor, h]

theorem tickCursor_succ_pause {pause : Nat → Nat} {n k w : Nat} (h : tickCursor pause n = (k, w + 1)) :
    tickCursor pause (n + 1) = (k, w) := by
  simp only [tickCursor, h]

theorem freeTicks_burst {pause : Nat → Nat} (burst : Nat → Nat) {n k : Nat} (h : tickCursor pause n = (k, 0)) :
    freeTicks pause burst n = burst k + 1 := by
  simp only [freeTicks, h]

theorem freeTicks_pause {pause : Nat → Nat} (burst : Nat → Nat) {n k w : Nat} (h : tickCursor pause n = (k, w + 1)) :
    freeTicks pause burst n = 0 := by
  simp only [freeTicks, h]

/-- A pause ends: `w` steps on, the burst comes. -/
theorem tickCursor_add {pause : Nat → Nat} (w : Nat) : ∀ {n k : Nat}, tickCursor pause n = (k, w) →
    tickCursor pause (n + w) = (k, 0) := by
  induction w with
  | zero => exact fun h => h
  | succ w ih =>
    intro n k h
    have hw := ih (tickCursor_succ_pause h)
    rwa [Nat.add_right_comm, Nat.add_assoc] at hw

/-- Whatever its pauses and bursts, a schedule is fair. -/
theorem fairTicks_freeTicks (pause burst : Nat → Nat) : FairTicks (freeTicks pause burst) := fun n =>
  ⟨n + (tickCursor pause n).2, Nat.le_add_right _ _, by
    rw [freeTicks_burst burst (tickCursor_add _ rfl)]
    exact Nat.succ_ne_zero _⟩

/-- The first tick of a fair agent at or after the n-th step, and no tick before it. -/
theorem exists_first_tick {ticks : Nat → Nat} (h : FairTicks ticks) (n : Nat) :
    ∃ m, n ≤ m ∧ ticks m ≠ 0 ∧ ∀ j, n ≤ j → j < m → ticks j = 0 :=
  ⟨Nat.find (h n), (Nat.find_spec (h n)).1, (Nat.find_spec (h n)).2, fun j hn hj => by
    by_contra hne
    exact Nat.find_min (h n) hj ⟨hn, hne⟩⟩

/-- No fair schedule is lost: whatever counts a fair agent has, some pauses and bursts give them. -/
theorem exists_freeTicks_eq (ticks : Nat → Nat) (h : FairTicks ticks) :
    ∃ pause burst, ∀ n, freeTicks pause burst n = ticks n := by
  choose next hle hne hzero using exists_first_tick h
  -- the step from which the k-th pause is counted
  let start : Nat → Nat := fun k => Nat.rec 0 (fun _ a => next a + 1) k
  have hstart : ∀ k, start (k + 1) = next (start k) + 1 := fun _ => rfl
  let pause : Nat → Nat := fun k => next (start k) - start k
  have hpause : ∀ k, start k + pause k = next (start k) := fun k => Nat.add_sub_of_le (hle (start k))
  have cursor : ∀ n, ∃ k w, tickCursor pause n = (k, w) ∧ start k ≤ n ∧ n + w = next (start k) := by
    intro n
    induction n with
    | zero => exact ⟨0, pause 0, rfl, le_rfl, hpause 0⟩
    | succ n ih =>
      obtain ⟨k, w, hc, hk, hw⟩ := ih
      cases w with
      | zero =>
        have hn : start (k + 1) = n + 1 := by rw [hstart, ← hw]
        exact ⟨k + 1, pause (k + 1), tickCursor_succ_burst hc, hn.le, by rw [← hn]; exact hpause (k + 1)⟩
      | succ w => exact ⟨k, w, tickCursor_succ_pause hc, by omega, by omega⟩
  refine ⟨pause, fun k => ticks (next (start k)) - 1, fun n => ?_⟩
  obtain ⟨k, w, hc, hk, hw⟩ := cursor n
  cases w with
  | zero =>
    have hn : n = next (start k) := hw
    rw [freeTicks_burst _ hc, ← hn]
    have := hne (start k)
    rw [← hn] at this
    omega
  | succ w => rw [freeTicks_pause _ hc, hzero (start k) n hk (by omega)]

/-! ### The feeds -/

/-- A feed after `n` values are taken. -/
theorem iterate_advance {α : Type} (n : Nat) (f : Feed α) :
    Feed.advance^[n] f = { queued := f.queued.drop n, taken := f.taken + n } := by
  induction n generalizing f with
  | zero => rfl
  | succ n ih =>
    rw [Function.iterate_succ_apply, ih]
    simp [Feed.advance]
    omega

/-- Whatever values are fixed, a fair agent goes on ticking: infinitely often the next count is not 0. -/
theorem peek_iterate_advance_ne_zero {ticks : Nat → Nat} (h : FairTicks ticks) (f : Feed Nat) (n : Nat) :
    ∃ m, n ≤ m ∧ (Feed.advance^[m] f).peek ticks ≠ 0 := by
  obtain ⟨m, hm, hne⟩ := h (f.taken + max n f.queued.length)
  refine ⟨m - f.taken, by omega, ?_⟩
  have hdrop : f.queued.drop (m - f.taken) = [] := List.drop_eq_nil_of_le (by omega)
  rw [iterate_advance, hdrop, peek_nil, Nat.add_sub_of_le (by omega)]
  exact hne

end Sys2Proof.Laws
end

