-- ==== Sys2Proof/Tests/Slice0.lean ====
section
/-! SUPPORT. Tests. Expected results come from spec/95_test_vectors.md (the row is named in each comment) or from a rule worked
by hand. After them, for each statement with hypotheses, a concrete state and operands that meet them. -/

namespace Sys2Proof.Tests

open Sys2Proof Sys2Proof.Machine

/-- What `f` reads in the state an action answers. -/
def after {α : Type} (o : Host.Outcome State Fault Refusal) (f : State → α) : Option α :=
  match o with
  | .next t => some (f t)
  | .fault _ => none
  | .refused _ => none

/-- The reset state with some registers set. -/
def withRegs (l : List (Reg × Byte)) : State := l.foldl (fun s p => s.setV p.1 p.2) State.reset

/-- The reset state with a stack depth. -/
def withSp (sp : Fin 17) : State := { State.reset with sp := sp }

/-- The reset state with `I` and some registers set. -/
def withIndex (i : Word) (l : List (Reg × Byte)) : State := { withRegs l with i := i }

/-- A state with a latched key, one poll's result fixed, and some registers set. -/
def withKeys (key polled : Option KeyCode) (l : List (Reg × Byte)) : State :=
  { withRegs l with key := key, keyFeed := { queued := [polled], taken := 0 } }

/-- The set cells of a frame buffer, row by row. -/
def setCells (fb : FrameBuffer) : List (Nat × Nat) :=
  (List.range 32).flatMap fun r => ((List.range 64).filter fun c => cell fb r c).map fun c => (r, c)

/-- The five fault registers. -/
def faultRegs (s : State) : RunState × BitVec 3 × Word × Word × BitVec 17 :=
  (s.runState, s.faultCode.bits, s.faultPc, s.faultOp, s.faultAddr)

/-! ### WellFormed: the one check (30_encoding.md R82) -/

/-- 16 sprite rows do not fit the 4-bit field. -/
theorem test_wf_refuses_sixteen_rows : (Instr.drwVxVyN 0 1 16).wf = false := by decide

/-- 15 do. -/
theorem test_wf_accepts_fifteen_rows : (Instr.drwVxVyN 0 1 15).wf = true := by decide

/-! ### Decoding: T8's words, every constructor -/

/-- Format Z. -/
theorem test_decode_z : decodeTableWord 16 0b0000000011100000 = some .cls ∧
    decodeTableWord 16 0b0000000011101110 = some .ret := by decide

/-- Format A: 4 bits of opcode, 12 bits of address. -/
theorem test_decode_a : decodeTableWord 16 0b0001101010111100 = some (.jp 0xABC) ∧
    decodeTableWord 16 0x2FFF = some (.call 0xFFF) ∧ decodeTableWord 16 0xA2F0 = some (.ldINnn 0x2F0) ∧
    decodeTableWord 16 0xB123 = some (.jpV0Nnn 0x123) := by decide

/-- Format XK. -/
theorem test_decode_xk : decodeTableWord 16 0b0011101001000010 = some (.seVxKk 10 0x42) ∧
    decodeTableWord 16 0x4B00 = some (.sneVxKk 11 0) ∧ decodeTableWord 16 0x6C01 = some (.ldVxKk 12 1) ∧
    decodeTableWord 16 0x7DFF = some (.addVxKk 13 0xFF) ∧ decodeTableWord 16 0xCE0F = some (.rndVxKk 14 0x0F) := by
  decide

/-- Format XY: the two register compares. -/
theorem test_decode_xy : decodeTableWord 16 0b0101101010110000 = some (.seVxVy 10 11) ∧
    decodeTableWord 16 0x9AB0 = some (.sneVxVy 10 11) := by decide

/-- Format XY: group 8. -/
theorem test_decode_group8 : decodeTableWord 16 0b1000101010110000 = some (.ldVxVy 10 11) ∧
    decodeTableWord 16 0x8AB1 = some (.orVxVy 10 11) ∧ decodeTableWord 16 0x8AB2 = some (.andVxVy 10 11) ∧
    decodeTableWord 16 0x8AB3 = some (.xorVxVy 10 11) ∧ decodeTableWord 16 0x8AB4 = some (.addVxVy 10 11) ∧
    decodeTableWord 16 0x8AB5 = some (.subVxVy 10 11) ∧ decodeTableWord 16 0x8AB6 = some (.shrVx 10 11) ∧
    decodeTableWord 16 0x8AB7 = some (.subnVxVy 10 11) ∧ decodeTableWord 16 0x8ABE = some (.shlVx 10 11) := by decide

/-- Format XYN. -/
theorem test_decode_xyn : decodeTableWord 16 0b1101101010110101 = some (.drwVxVyN 10 11 5) := by decide

/-- Format X: group E. -/
theorem test_decode_groupE : decodeTableWord 16 0b1110101010011110 = some (.skpVx 10) ∧
    decodeTableWord 16 0xEAA1 = some (.sknpVx 10) := by decide

/-- Format X: group F. -/
theorem test_decode_groupF : decodeTableWord 16 0b1111101000000111 = some (.ldVxDt 10) ∧
    decodeTableWord 16 0xFA0A = some (.ldVxK 10) ∧ decodeTableWord 16 0xFA15 = some (.ldDtVx 10) ∧
    decodeTableWord 16 0xFA18 = some (.ldStVx 10) ∧ decodeTableWord 16 0xFA1E = some (.addIVx 10) ∧
    decodeTableWord 16 0xFA29 = some (.ldFVx 10) ∧ decodeTableWord 16 0xFA33 = some (.ldBVx 10) ∧
    decodeTableWord 16 0xFA55 = some (.ldMemVx 10) ∧ decodeTableWord 16 0xFA65 = some (.ldVxMem 10) := by decide

/-- T8's illegal words of groups 0, 5, 8 and 9. -/
theorem test_decode_illegal_low :
    [0x0000, 0x00E1, 0x00EF, 0x0123, 0x01E0, 0x0FFF, 0x5AB1, 0x5ABF, 0x9AB1, 0x8AB8, 0x8AB9, 0x8ABA, 0x8ABB, 0x8ABC,
      0x8ABD, 0x8ABF].map (decodeTableWord 16) = List.replicate 16 none := by decide

/-- T8's illegal words of groups E and F. -/
theorem test_decode_illegal_high :
    [0xEA9F, 0xEAA0, 0xEA00, 0xEAFF, 0xFA00, 0xFA08, 0xFA0B, 0xFA16, 0xFA1F, 0xFA30, 0xFA56, 0xFA75, 0xFAFF].map
      (decodeTableWord 16) = List.replicate 13 none := by decide

/-- T8: the bytes of `LD [I],VA` as memory holds them, high byte first. -/
theorem test_encode_bytes : bytesOfWord (encode (.ldMemVx 10)) = [0xFA, 0x55] := by decide

/-! ### Control flow (T1) -/

/-- T1 row 1. -/
theorem test_jp : after (exec (.jp 0xABC) State.reset) State.pc = some 0x0ABC := by decide

/-- T1 row 7: the last free entry. -/
theorem test_call_last_entry :
    after (exec (.call 0x400) { withSp 15 with pc := 0x300 }) (fun t => (t.stack[15], t.sp.val, t.pc)) =
      some (0x0302, 16, 0x0400) := by decide

/-- T1 row 8. -/
theorem test_call_overflow :
    after (exec (.call 0x400) { withSp 16 with pc := 0x300 }) (fun t => (faultRegs t, t.sp.val, t.pc)) =
      some ((.faulted, 2, 0x0300, 0x2400, 0), 16, 0x0300) := by decide

/-- T1 row 6: the popped entry keeps its value. -/
theorem test_ret :
    after (exec .ret { withSp 1 with pc := 0x20E, stack := (Vector.replicate 16 0).set 0 0x206 })
      (fun t => (t.sp.val, t.pc, t.stack[0])) = some (0, 0x0206, 0x0206) := by decide

/-- T1 row 9. -/
theorem test_ret_underflow :
    after (exec .ret { withSp 0 with pc := 0x300 }) (fun t => (faultRegs t, t.sp.val, t.pc)) =
      some ((.faulted, 3, 0x0300, 0x00EE, 0), 0, 0x0300) := by decide

/-- T1 row 11: no 12-bit mask. -/
theorem test_jpV0 : after (exec (.jpV0Nnn 0xFFF) (withRegs [(0, 0xFF)])) State.pc = some 0x10FE := by decide

/-- T1 rows 12 and 13. -/
theorem test_seVxKk : after (exec (.seVxKk 1 0x42) (withRegs [(1, 0x42)])) State.pc = some 0x0204 ∧
    after (exec (.seVxKk 1 0x42) (withRegs [(1, 0x41)])) State.pc = some 0x0202 := by decide

/-- T1 rows 14 and 15. -/
theorem test_sneVxKk : after (exec (.sneVxKk 1 0x42) (withRegs [(1, 0x42)])) State.pc = some 0x0202 ∧
    after (exec (.sneVxKk 1 0x42) (withRegs [(1, 0x41)])) State.pc = some 0x0204 := by decide

/-- T1 rows 16 and 17. -/
theorem test_seVxVy : after (exec (.seVxVy 1 2) (withRegs [(1, 7), (2, 7)])) State.pc = some 0x0204 ∧
    after (exec (.seVxVy 1 2) (withRegs [(1, 7), (2, 8)])) State.pc = some 0x0202 := by decide

/-- T1 rows 19 and 20. -/
theorem test_sneVxVy : after (exec (.sneVxVy 1 2) (withRegs [(1, 7), (2, 8)])) State.pc = some 0x0204 ∧
    after (exec (.sneVxVy 1 2) (withRegs [(1, 7), (2, 7)])) State.pc = some 0x0202 := by decide

/-! ### ALU (T2): the result register and VF -/

/-- `V[x]` and `VF` after an instruction. -/
def resultAndFlag (i : Instr) (x : Reg) (s : State) : Option (Byte × Byte) := after (exec i s) fun t => (t.getV x, t.getV 15)

/-- T2 row 2. -/
theorem test_ldVxKk : after (exec (.ldVxKk 15 0x55) State.reset) (fun t => (t.getV 15, t.pc)) = some (0x55, 0x0202) := by
  decide

/-- T2 row 3. -/
theorem test_addVxKk : resultAndFlag (.addVxKk 1 3) 1 (withRegs [(1, 0xFE), (15, 0)]) = some (0x01, 0) := by decide

/-- T2 row 6. -/
theorem test_ldVxVy : resultAndFlag (.ldVxVy 1 2) 1 (withRegs [(2, 0x7A)]) = some (0x7A, 0) := by decide

/-- T2 row 7. -/
theorem test_or : resultAndFlag (.orVxVy 0 1) 0 (withRegs [(0, 0xF0), (1, 0x0F), (15, 1)]) = some (0xFF, 1) := by decide

/-- T2 row 8. -/
theorem test_and : resultAndFlag (.andVxVy 0 1) 0 (withRegs [(0, 0xF3), (1, 0x3C), (15, 1)]) = some (0x30, 1) := by decide

/-- T2 row 9. -/
theorem test_xor : resultAndFlag (.xorVxVy 0 1) 0 (withRegs [(0, 0xFF), (1, 0x0F), (15, 1)]) = some (0xF0, 1) := by decide

/-- T2 rows 12 and 35. -/
theorem test_add : resultAndFlag (.addVxVy 0 1) 0 (withRegs [(0, 0xFF), (1, 1)]) = some (0x00, 1) ∧
    resultAndFlag (.addVxVy 0 15) 0 (withRegs [(0, 0x10), (15, 3)]) = some (0x13, 0) := by decide

/-- T2 row 31: the flag is what remains. -/
theorem test_add_into_vf : resultAndFlag (.addVxVy 15 1) 15 (withRegs [(15, 0xFF), (1, 1)]) = some (1, 1) := by decide

/-- T2 rows 16 and 18. -/
theorem test_sub : resultAndFlag (.subVxVy 0 1) 0 (withRegs [(0, 0x10), (1, 0x20)]) = some (0xF0, 0) ∧
    resultAndFlag (.subVxVy 0 1) 0 (withRegs [(0, 7), (1, 7)]) = some (0x00, 1) := by decide

/-- T2 row 32. -/
theorem test_sub_into_vf : resultAndFlag (.subVxVy 15 1) 15 (withRegs [(15, 5), (1, 1)]) = some (1, 1) := by decide

/-- T2 row 23: V1 unused and unchanged. -/
theorem test_shr : resultAndFlag (.shrVx 0 1) 0 (withRegs [(0, 0x05), (1, 0xFF)]) = some (0x02, 1) ∧
    after (exec (.shrVx 0 1) (withRegs [(0, 0x05), (1, 0xFF)])) (fun t => t.getV 1) = some 0xFF := by decide

/-- T2 rows 20 and 21. -/
theorem test_subn : resultAndFlag (.subnVxVy 0 1) 0 (withRegs [(0, 0x10), (1, 0x20)]) = some (0x10, 1) ∧
    resultAndFlag (.subnVxVy 0 1) 0 (withRegs [(0, 0x20), (1, 0x10)]) = some (0xF0, 0) := by decide

/-- T2 rows 27 and 28. -/
theorem test_shl : resultAndFlag (.shlVx 0 1) 0 (withRegs [(0, 0x81), (1, 0x00)]) = some (0x02, 1) ∧
    resultAndFlag (.shlVx 0 0) 0 (withRegs [(0, 0x7F)]) = some (0xFE, 0) := by decide

/-- T2 row 38. -/
theorem test_rnd : after (exec (.rndVxKk 3 0xF0) { State.reset with rndFeed := { queued := [0xA7], taken := 0 } })
    (fun t => (t.getV 3, t.rndFeed.taken)) = some (0xA0, 1) := by decide

/-! ### Index register and memory (T3) -/

/-- T3 row 1. -/
theorem test_ldI : after (exec (.ldINnn 0x2F0) State.reset) State.i = some 0x02F0 := by decide

/-- T3 rows 4 and 5. -/
theorem test_addI : after (exec (.addIVx 2) (withIndex 0x0FFF [(2, 1)])) (fun t => (t.i, t.getV 15)) = some (0x1000, 0) ∧
    after (exec (.addIVx 2) (withIndex 0xFFFF [(2, 1)])) State.i = some 0x0000 := by decide

/-- T3 row 7: low nibble only. -/
theorem test_ldF : after (exec (.ldFVx 0) (withRegs [(0, 0x1A)])) State.i = some 0x0032 := by decide

/-- T3 row 15: the last legal I. -/
theorem test_bcd : after (exec (.ldBVx 0) (withIndex 0x0FFD [(0, 99)])) (fun t => t.mem.readBytes 0xFFD 3) =
    some [0, 9, 9] := by decide

/-- T3 row 16. -/
theorem test_bcd_fault : after (exec (.ldBVx 0) (withIndex 0x0FFE [(0, 99)]))
    (fun t => (faultRegs t, t.mem.isEmpty, t.pc)) =
      some ((.faulted, 4, 0x0200, 0xF033, 0x1000), true, 0x0200) := by decide

/-- T3 row 17. -/
theorem test_dump : after (exec (.ldMemVx 1) (withIndex 0x0400 [(0, 0xAA), (1, 0xBB), (2, 0xCC)]))
    (fun t => (t.mem, t.i)) = some ([(0x400, 0xAA), (0x401, 0xBB)], 0x0400) := by decide

/-- T3 row 22. -/
theorem test_dump_fault : after (exec (.ldMemVx 0) (withIndex 0x1234 [])) (fun t => t.faultAddr) = some 0x1234 := by decide

/-- T3 row 24: glyph 0 of the font. -/
theorem test_load : after (exec (.ldVxMem 4) (withIndex 0 [(5, 7)]))
    (fun t => (t.regsUpTo 5, t.i)) = some ([0xF0, 0x90, 0x90, 0x90, 0xF0, 7], 0) := by decide

/-- T3 row 26. -/
theorem test_load_fault : after (exec (.ldVxMem 0) (withIndex 0x1000 [(0, 3)]))
    (fun t => (t.faultAddr, t.getV 0)) = some (0x1000, 3) := by decide

/-! ### Display (T4) -/

/-- T4 row 15. -/
theorem test_cls : after (exec .cls { withRegs [(15, 1)] with fb := Vector.replicate 32 0xFF })
    (fun t => (setCells t.fb, t.getV 15, t.redraws)) = some ([], 1, 1) := by decide

/-- T4 row 2: clipped at the right and the bottom. -/
theorem test_drw_clips : after (exec (.drwVxVyN 1 2 5) (withIndex 0 [(1, 62), (2, 30)]))
    (fun t => (setCells t.fb, t.getV 15)) = some ([(30, 62), (30, 63), (31, 62)], 0) := by decide

/-- T4 row 8: a collision. -/
theorem test_drw_collides : after (exec (.drwVxVyN 0 1 1)
      { withIndex 0x300 [] with mem := [(0x300, 0x80)], fb := toggleCell blankFrame 0 0 })
    (fun t => (setCells t.fb, t.getV 15)) = some ([], 1) := by decide

/-! ### Keypad and timers (T5, T6) -/

/-- T5 rows 1 and 6. -/
theorem test_skp : after (exec (.skpVx 2) (withKeys none (some 7) [(2, 7)])) (fun t => (t.key, t.pc)) = some (none, 0x0204) ∧
    after (exec (.skpVx 2) (withKeys (some 7) none [(2, 0x17)])) (fun t => (t.key, t.pc)) = some (some 7, 0x0202) := by
  decide

/-- T5 rows 10 and 11. -/
theorem test_sknp : after (exec (.sknpVx 0) (withKeys (some 3) none [(0, 3)])) (fun t => (t.key, t.pc)) = some (none, 0x0202) ∧
    after (exec (.sknpVx 0) (withKeys (some 3) none [(0, 4)])) (fun t => (t.key, t.pc)) = some (some 3, 0x0204) := by
  decide

/-- T5 row 7. -/
theorem test_ldK_waits : after (exec (.ldVxK 2) (withKeys none none [])) (fun t => (t.key, t.getV 2, t.pc)) =
    some (none, 0, 0x0200) := by decide

/-- T5 row 9: the latched key satisfies the wait and stays latched. -/
theorem test_ldK_takes : after (exec (.ldVxK 2) (withKeys (some 4) none [])) (fun t => (t.key, t.getV 2, t.pc)) =
    some (some 4, 4, 0x0202) := by decide

/-- T6 row 1. -/
theorem test_ldDt : after (exec (.ldDtVx 0) (withRegs [(0, 3)])) State.dt = some 3 := by decide

/-- T6 row 5. -/
theorem test_ldVxDt : after (exec (.ldVxDt 3) { State.reset with dt := 0x2A }) (fun t => (t.getV 3, t.dt)) =
    some (0x2A, 0x2A) := by decide

/-- T6 row 6. -/
theorem test_ldSt : after (exec (.ldStVx 1) (withRegs [(1, 0x10)])) (fun t => (t.st, t.soundOn)) = some (0x10, true) := by
  decide

/-- T6 rows 4, 8 and 12. -/
theorem test_ticks : after (act .delayTick State.reset) State.dt = some 0 ∧
    after (act .delayTick { State.reset with dt := 5, st := 5 }) (fun t => (t.dt, t.st)) = some (4, 5) ∧
    after (act .delayTick { State.reset with dt := 2, runState := .faulted }) State.dt = some 1 := by decide

/-! ### The step (T1 rows 23 and 24, T6 row 11, T7) -/

/-- T7 row 1: nothing loaded, the first step raises DecodeFailure. -/
theorem test_step_unloaded : after (engineStep State.reset) (fun t => (faultRegs t, t.pc)) =
    some ((.faulted, 1, 0x0200, 0x0000, 0), 0x0200) := by decide

/-- T1 row 24: an odd PC below the halt limit. -/
theorem test_step_odd_pc : after (step { State.reset with pc := 0xFFD, mem := [(0xFFD, 0x60), (0xFFE, 0x07)] })
    (fun t => (t.getV 0, t.pc, t.isHalted)) = some (7, 0x0FFF, true) := by decide

/-- T6 row 11: one Delay tick falls after the step that sets DT. -/
theorem test_step_ticks : after (step { withRegs [(0, 3)] with
      mem := [(0x200, 0xF0), (0x201, 0x15)], delayFeed := { queued := [1], taken := 0 } }) State.dt = some 2 := by decide

/-- T7 row 3, and a fill of two bytes: the font stays, address 81 is filled. -/
theorem test_reset_port : after (act (.reset [7, 8]) { State.reset with runState := .faulted, faultCode := .memRange, dt := 3 })
    (fun t => (faultRegs t, t.dt, t.mem.readBytes 78 5)) =
      some ((.running, 0, 0, 0, 0), 0, [0x80, 0x80, 7, 8, 0]) := by decide

/-- T7 row 8, and a load of two bytes. -/
theorem test_load_port : State.reset.load [] = (.ok, State.reset) ∧
    (State.reset.load [0x12, 0x00]).2.mem.readWord 0x200 = 0x1200 := by decide

/-- The word of a row is what the next step runs (notes/assumptions/8.md). -/
theorem test_withFetchWord : after (step ({ State.reset with pc := 0xFFE }.withFetchWord 16 0x6A7F))
    (fun t => (t.getV 10, t.pc)) = some (0x7F, 0x0202) := by decide

/-! ### Witnesses: each statement's hypotheses are met, at the boundary values of each clause. The obligation is named after
`witness_`; statements without a hypothesis have none. -/

/-- The reset state with the word `w` at 0x200. -/
def withWord (w : Nat) : State := State.reset.withFetchWord 16 w

/-- A faulted state: RET on an empty stack, at the last address an instruction runs at. -/
def faultedState : State :=
  { State.reset with
    pc := 0xFFD, mem := [(0xFFE, 0xEE)], runState := .faulted, faultCode := .stackUnderflow, faultPc := 0xFFD,
    faultOp := 0x00EE }

/-- The first and the last address of the font and of the fill. -/
theorem witness_ResetGivesEveryElementItsValue : 0 < 80 ∧ 79 < 80 ∧ (80 ≤ 80 ∧ 80 < 4096) ∧ 80 ≤ 4095 ∧ 4095 < 4096 := by
  decide

/-- Addresses 0 and 79 of the font region. -/
theorem witness_FontLiesInOrdinaryMemory : Memory.wf [(0x300, 1)] ∧ 0 < 80 ∧ 79 < 80 := by decide

/-- The largest count a well-formed draw has. -/
theorem witness_EncodedInstructionDecodesToItself : (Instr.drwVxVyN 15 15 15).wf = true := by decide

/-- A legal word. -/
theorem witness_LegalWordIsTheWordOfItsInstruction : decode 0xDFFF = .ok (.drwVxVyN 15 15 15) := by rfl

/-- A word of the first row, one of the last, and one of none. -/
theorem witness_RowMatchSelectsTheInstruction : decode 0x00E0 = .ok .cls ∧ decode 0xFF65 = .ok (.ldVxMem 15) ∧
    decode 0xFF66 = .error (.illegal 0xFF66) := ⟨rfl, rfl, rfl⟩

/-- At the last address an instruction runs at. -/
theorem witness_StepRunsTheDecodedInstruction :
    let s : State := { State.reset with pc := 0xFFD, mem := [(0xFFD, 0x60), (0xFFE, 0x07)] }
    s.runState = .running ∧ s.pc.toNat < 4094 ∧
    (0x6007 : Word).toNat = (s.mem.read s.pc.toNat).toNat * 256 + (s.mem.read (s.pc.toNat + 1)).toNat ∧
    decode 0x6007 = .ok (.ldVxKk 0 7) := ⟨by decide, by decide, by decide, rfl⟩

/-- Nothing loaded. -/
theorem witness_IllegalWordRaisesDecodeFailure :
    let s : State := State.reset
    s.runState = .running ∧ s.pc.toNat < 4094 ∧
    (0x0000 : Word).toNat = (s.mem.read s.pc.toNat).toNat * 256 + (s.mem.read (s.pc.toNat + 1)).toNat ∧
    decode 0x0000 = .error (.illegal 0x0000) := ⟨by decide, by decide, by decide, rfl⟩

/-- The first halted PC, and the largest a jump makes. -/
theorem witness_HaltedEngineStaysHalted :
    let s : State := { State.reset with pc := 4094 }
    let t : State := { State.reset with pc := 0x10FE }
    (s.runState = .running ∧ 4094 ≤ s.pc.toNat) ∧ t.runState = .running ∧ 4094 ≤ t.pc.toNat := by decide

/-- A faulted state. -/
theorem witness_FaultedEngineStaysFaulted : faultedState.runState = .faulted := by decide

/-- A step of a loaded machine. -/
theorem witness_StepIsTheEngineThenTicks : ∃ t, step (withWord 0x6A7F) = .next t := ⟨_, rfl⟩

/-- Two ticks of one agent around one of the other. -/
theorem witness_AnyTicksMayFollowAStep :
    let ticks : List Action := [.delayTick, .soundTick, .delayTick]
    (∀ a ∈ ticks, Claims.IsTick a) ∧ ∃ u, runActions false (.engine :: ticks) (withWord 0xF015) = .next u :=
  ⟨by simp [Claims.IsTick], _, rfl⟩

/-- A full, a one-entry and an empty stack. -/
theorem witness_RetPopsOrUnderflows : 0 < (withSp 16).sp.val ∧ 0 < (withSp 1).sp.val ∧ (withSp 0).sp.val = 0 := by decide

/-- An empty stack, one with one entry free, and a full one. -/
theorem witness_CallPushesOrOverflows : (withSp 0).sp.val < 16 ∧ (withSp 15).sp.val < 16 ∧ (withSp 16).sp.val = 16 := by
  decide

/-- One entry free. -/
theorem witness_CallThenRetComesBack : (withSp 15).sp.val < 16 := by decide

/-- The last I that is in range, the first that is not. -/
theorem witness_BcdStoresThreeDigits :
    ((withIndex 0xFFD []).mem.wf ∧ (withIndex 0xFFD []).i.toNat + 2 < 4096) ∧ 4096 ≤ (withIndex 0xFFE []).i.toNat + 2 := by
  decide

/-- For all 16 registers and for one: the last I that is in range, the first that is not. -/
theorem witness_RegisterDumpStoresV0ToVx :
    ((withIndex 0xFF0 []).mem.wf ∧ (withIndex 0xFF0 []).i.toNat + (15 : Reg).val < 4096) ∧
    4096 ≤ (withIndex 0xFF1 []).i.toNat + (15 : Reg).val ∧ (withIndex 0xFFF []).i.toNat + (0 : Reg).val < 4096 ∧
    4096 ≤ (withIndex 0x1000 []).i.toNat + (0 : Reg).val := by decide

/-- For all 16 registers and for one: the last I that is in range, the first that is not. -/
theorem witness_RegisterLoadReadsV0ToVx :
    (withIndex 0xFF0 []).i.toNat + (15 : Reg).val < 4096 ∧ 4096 ≤ (withIndex 0xFF1 []).i.toNat + (15 : Reg).val ∧
    (withIndex 0xFFF []).i.toNat + (0 : Reg).val < 4096 ∧ 4096 ≤ (withIndex 0x1000 []).i.toNat + (0 : Reg).val := by decide

/-- No row at the largest I; 15 rows and one row at the last I that is in range and the first that is not. -/
theorem witness_DrawReadsTheSpriteAtI :
    (0 = 0 ∨ (withIndex 0xFFFF []).i.toNat + 0 - 1 < 4096) ∧
    (15 ≤ 15 ∧ (withIndex 0xFF1 []).i.toNat + 15 - 1 < 4096) ∧
    (0 < 15 ∧ 4096 ≤ (withIndex 0xFF2 []).i.toNat + 15 - 1) ∧ (withIndex 0xFFF []).i.toNat + 1 - 1 < 4096 ∧
    4096 ≤ (withIndex 0x1000 []).i.toNat + 1 - 1 := by decide

/-- A display cell at each corner. -/
theorem witness_BlitterTogglesExactlyTheVisibleSprite : (0 < 32 ∧ 0 < 64) ∧ 31 < 32 ∧ 63 < 64 := by decide

/-- A match, a wrong key, a value whose low nibble alone matches, and no key. -/
theorem witness_SkipIfKeyConsumesAMatch :
    Claims.KeyMatch (withKeys none (some 7) [(2, 7)]) 2 ∧ ¬ Claims.KeyMatch (withKeys none (some 7) [(2, 5)]) 2 ∧
    ¬ Claims.KeyMatch (withKeys (some 7) none [(2, 0x17)]) 2 ∧ ¬ Claims.KeyMatch (withKeys none none [(2, 7)]) 2 := by
  refine ⟨⟨7, by decide, by decide⟩, ?_, ?_, ?_⟩
  · rintro ⟨k, h, hv⟩
    have hk : some 7 = some k := h
    cases hk
    exact absurd hv (by decide)
  · rintro ⟨k, h, hv⟩
    have hk : some 7 = some k := h
    cases hk
    exact absurd hv (by decide)
  · rintro ⟨k, h, -⟩
    have hk : none = some k := h
    cases hk

/-- The same two clauses. -/
theorem witness_SkipIfNoKeyConsumesAMatch :
    Claims.KeyMatch (withKeys (some 15) none [(15, 15)]) 15 ∧ ¬ Claims.KeyMatch (withKeys none none [(0, 4)]) 0 := by
  refine ⟨⟨15, by decide, by decide⟩, ?_⟩
  rintro ⟨k, h, -⟩
  have hk : none = some k := h
  cases hk

/-- A polled key, a latched key, and none. -/
theorem witness_KeyWaitLoadsOrReissues :
    Claims.latched (withKeys none (some 0) []) = some 0 ∧ Claims.latched (withKeys (some 15) none []) = some 15 ∧
    Claims.latched (withKeys none none []) = none := by decide

/-- Ticks of both agents. -/
theorem witness_TicksInAnyOrderAddUp : ∀ a ∈ [Action.soundTick, .delayTick, .soundTick], Claims.IsTick a := by
  simp [Claims.IsTick]

/-- A MemRange and a DecodeFailure. -/
theorem witness_FaultsArePrecise :
    (∃ t, engineStep { withWord 0xF055 with i := 0x1234 } = .next t ∧ t.runState = .faulted ∧ t.faultCode = .memRange) ∧
    ∃ t, engineStep State.reset = .next t ∧ t.runState = .faulted ∧ t.faultCode ≠ .memRange :=
  ⟨⟨_, rfl, by decide, by decide⟩, _, rfl, by decide, by decide⟩

/-- Each fault of an instruction, and none. -/
theorem witness_InstructionsFaultExactlyAsListed :
    State.reset.runState = .running ∧ (∃ t, exec .ret State.reset = .next t) ∧
    Claims.faultOf (withSp 0) .ret = some (.stackUnderflow, 0) ∧
    Claims.faultOf (withSp 16) (.call 0) = some (.stackOverflow, 0) ∧
    Claims.faultOf (withIndex 0xFFF []) (.ldMemVx 1) = some (.memRange, 0x1000) ∧
    Claims.faultOf (withIndex 0xFFFF []) (.drwVxVyN 0 0 0) = none := ⟨by decide, ⟨_, rfl⟩, by decide⟩

/-- Each element changes under one of its writers. -/
theorem witness_EachElementHasItsOwnWriters :
    after (exec (.ldINnn 1) State.reset) (fun t => decide (t.i ≠ 0)) = some true ∧
    after (exec (.call 0) State.reset) (fun t => decide (t.stack ≠ State.reset.stack ∧ t.sp ≠ 0)) = some true ∧
    after (exec (.ldDtVx 0) (withRegs [(0, 1)])) (fun t => decide (t.dt ≠ 0)) = some true ∧
    after (exec (.ldStVx 0) (withRegs [(0, 1)])) (fun t => decide (t.st ≠ 0)) = some true ∧
    after (exec (.ldVxK 0) (withKeys none (some 1) [])) (fun t => decide (t.key ≠ none ∧ t.keyFeed.taken ≠ 0)) = some true ∧
    after (exec (.rndVxKk 0 0) State.reset) (fun t => decide (t.rndFeed.taken ≠ 0)) = some true ∧
    after (exec (.ldBVx 0) (withIndex 0x300 [(0, 1)])) (fun t => decide (t.mem ≠ [])) = some true ∧
    after (exec .cls { State.reset with fb := toggleCell blankFrame 0 0 })
      (fun t => decide (cell t.fb 0 0 = false ∧ t.redraws ≠ 0)) = some true ∧
    after (exec (.ldMemVx 0) (withIndex 0x1234 [])) (fun t => decide (t.runState ≠ .running ∧ t.faultCode ≠ .none ∧
      t.faultPc ≠ 0 ∧ t.faultOp ≠ 0 ∧ t.faultAddr ≠ 0)) = some true := by decide

/-- A destination, and a flag writer that does not fault. -/
theorem witness_RegistersChangeOnlyAsDestinations :
    after (exec (.ldVxKk 15 1) State.reset) (fun t => decide (t.getV 15 ≠ State.reset.getV 15)) = some true ∧
    Claims.flagWriter (.drwVxVyN 0 0 0) = true ∧ Claims.faultOf State.reset (.drwVxVyN 0 0 0) = none := by decide

/-- A shift does not read its second register. -/
theorem witness_UnreadRegisterHasNoInfluence :
    Claims.readsReg (.shrVx 0 1) 1 = false ∧ ∃ t, exec (.shrVx 0 1) (withRegs [(1, 3)]) = .next t := ⟨by decide, _, rfl⟩

/-- An instruction that takes neither input, and one that takes each. -/
theorem witness_InputsMatterOnlyToTheirInstructions :
    ¬ Claims.KeyInstr (.rndVxKk 0 1) ∧ ¬ ∃ x kk, Instr.ldVxK 0 = .rndVxKk x kk := by
  constructor
  · rintro ⟨x, h | h | h⟩ <;> cases h
  · rintro ⟨x, kk, h⟩; cases h

/-- A jump to an even address. -/
theorem witness_EvenPcStaysEven :
    (∃ t, engineStep (withWord 0x1ABC) = .next t) ∧ (withWord 0x1ABC).pc.toNat % 2 = 0 ∧
    decode (withWord 0x1ABC).fetch = .ok (.jp 0xABC) ∧
    ∀ a, Claims.jumpTarget (withWord 0x1ABC) (.jp 0xABC) = some a → a % 2 = 0 := by
  refine ⟨⟨_, rfl⟩, by decide, rfl, ?_⟩
  intro a h
  have ha : 0xABC = a := Option.some.inj h
  subst ha
  rfl

/-- A memory with cells in and past the font. -/
theorem witness_MemoriesThatReadAlikeAreEqual : Memory.wf [(0, 1), (0x300, 5)] := by decide

/-- The longest stream that fits, one byte more, and the empty one. -/
theorem witness_LoadInstallsTheStream :
    State.reset.mem.wf ∧ (List.replicate 3584 (1 : Byte)).length ≤ 3584 ∧ 3584 < (List.replicate 3585 (1 : Byte)).length ∧
    ([] : List Byte).length ≤ 3584 := by
  refine ⟨by decide, ?_, ?_, by decide⟩
  · rw [List.length_replicate]
  · rw [List.length_replicate]; omega

/-- A legal and an illegal word. -/
theorem witness_StoredWordIsRunNext : faultedState.mem.wf ∧ decode (BitVec.ofNat 16 0x00E0) = .ok .cls ∧
    decode (BitVec.ofNat 16 0) = .error (.illegal 0) := ⟨by decide, rfl, rfl⟩

/-- A faulted state meets the invariant, and steps. -/
theorem witness_StepKeepsTheInvariant : Safety.Inv faultedState ∧ ∃ t, step faultedState = .next t :=
  ⟨{ memCanonical := by decide
     pcBound := by decide
     stackBound := by decide
     runningClear := by decide
     faultedRecord := by decide }, _, rfl⟩

/-- A tick and a load before the first step, ticks between steps, a second reset and its load; a load after a step, and a second
load; a load that fails, with a step after it and with a second load after it. -/
theorem witness_EveryBootedExecutionKeepsTheInvariant :
    Claims.hostKeepsOrder true [.delayTick, .load [0x12, 0x00], .engine, .soundTick, .engine, .reset [1], .load [], .engine] =
      true ∧
    Claims.hostKeepsOrder true [.engine, .load []] = false ∧ Claims.hostKeepsOrder true [.load [], .load []] = false ∧
    (State.reset.load (List.replicate 3585 1)).1 = .loadOverflow ∧
    Claims.hostKeepsOrder true [.load (List.replicate 3585 1), .engine] = true ∧
    Claims.hostKeepsOrder true [.load (List.replicate 3585 1), .load []] = false := by
  refine ⟨by decide, by decide, by decide, ?_, rfl, rfl⟩
  rw [State.load, if_pos (by rw [List.length_replicate]; decide)]

end Sys2Proof.Tests
end

section
/-! PROOFS. Which state elements an instruction can change (00_scope.md R11): a fault writes the fault registers, an
instruction that completes writes its own elements. -/

namespace Sys2Proof.Proofs

open Sys2Proof.Machine Sys2Proof.Claims Sys2Proof.Laws

/-! ### The fault condition of a data access (20_memory.md R54) -/

theorem ifInRange_of_rangeFault_none {s : State} {n : Nat} (hf : rangeFault s n = none) (op : Word) (t : State) :
    s.ifInRange (s.dataAddr 0) n op t = t := by
  apply ifInRange_ok
  unfold rangeFault at hf
  split at hf
  · cases hf
  · simp only [State.dataAddr, memSize]
    omega

theorem ifInRange_of_rangeFault_some {s : State} {n a : Nat} {f : FaultCode} (hf : rangeFault s n = some (f, a))
    (op : Word) (t : State) : s.ifInRange (s.dataAddr 0) n op t = s.raise f op a := by
  unfold rangeFault at hf
  split at hf
  · cases hf
    exact ifInRange_fault s t _ n op (by omega) (by simp only [State.dataAddr, memSize]; omega)
  · cases hf

/-! ### What an instruction does, by its fault condition -/

/-- An instruction that meets its fault condition raises that fault under its own word, and does nothing else
(60_exceptions.md R180, R184). -/
theorem exec_of_faultOf_some {i : Instr} {s : State} {f : FaultCode} {a : Nat} (hf : faultOf s i = some (f, a)) :
    exec i s = .next (s.raise f (encode i) a) := by
  cases i with
  | ret =>
    obtain ⟨hsp, hfa⟩ : s.sp.val = 0 ∧ (FaultCode.stackUnderflow, 0) = (f, a) := by simpa [faultOf] using hf
    cases hfa
    exact congrArg Host.Outcome.next (if_pos hsp)
  | call nnn =>
    obtain ⟨hsp, hfa⟩ : s.sp.val = 16 ∧ (FaultCode.stackOverflow, 0) = (f, a) := by simpa [faultOf] using hf
    cases hfa
    exact congrArg Host.Outcome.next (if_pos hsp)
  | drwVxVyN x y n => exact congrArg Host.Outcome.next (ifInRange_of_rangeFault_some hf _ _)
  | ldBVx x => exact congrArg Host.Outcome.next (ifInRange_of_rangeFault_some hf _ _)
  | ldMemVx x =>
    rw [faultOf, ← length_regsUpTo s x] at hf
    exact congrArg Host.Outcome.next (ifInRange_of_rangeFault_some hf _ _)
  | ldVxMem x => exact congrArg Host.Outcome.next (ifInRange_of_rangeFault_some hf _ _)
  | _ => cases hf

/-- What a completed instruction can change: V, PC, and the state elements it is a writer of. -/
inductive Completes (i : Instr) (s : State) : State → Prop
  | registers (v : Vector Byte 16) (pc : Word) : Completes i s { s with v := v, pc := pc }
  | index (hi : (∃ nnn, i = .ldINnn nnn) ∨ ∃ x, i = .addIVx x ∨ i = .ldFVx x) (w pc : Word) :
      Completes i s { s with i := w, pc := pc }
  | pop (hi : i = .ret) (sp : Fin 17) (pc : Word) : Completes i s { s with sp := sp, pc := pc }
  | push (hi : ∃ nnn, i = .call nnn) (stack : Vector Word 16) (sp : Fin 17) (pc : Word) :
      Completes i s { s with stack := stack, sp := sp, pc := pc }
  | delayTimer (hi : ∃ x, i = .ldDtVx x) (dt : Byte) (pc : Word) : Completes i s { s with dt := dt, pc := pc }
  | soundTimer (hi : ∃ x, i = .ldStVx x) (st : Byte) (pc : Word) : Completes i s { s with st := st, pc := pc }
  | key (hi : KeyInstr i) (v : Vector Byte 16) (key : Option KeyCode) (feed : Feed (Option KeyCode)) (pc : Word) :
      Completes i s { s with v := v, key := key, keyFeed := feed, pc := pc }
  | random (hi : ∃ x kk, i = .rndVxKk x kk) (v : Vector Byte 16) (feed : Feed Byte) (pc : Word) :
      Completes i s { s with v := v, rndFeed := feed, pc := pc }
  | memory (hi : ∃ x, i = .ldBVx x ∨ i = .ldMemVx x) (mem : Memory) (pc : Word) :
      Completes i s { s with mem := mem, pc := pc }
  | display (hi : i = .cls ∨ ∃ x y n, i = .drwVxVyN x y n) (v : Vector Byte 16) (fb : FrameBuffer) (redraws : Nat)
      (pc : Word) : Completes i s { s with v := v, fb := fb, redraws := redraws, pc := pc }

/-- SKP and SKNP poll the key port, may clear the latch, and skip or not (45_keypad_timers.md R172, R173). -/
theorem completes_keySkip {i : Instr} (hi : KeyInstr i) (s : State) (x : Reg) (skipOn : Bool) :
    Completes i s (s.keySkip x skipOn) := by
  simp only [State.keySkip]
  split
  · exact .key hi _ _ _ _
  · exact .key hi _ _ _ _

/-- LD Vx,K polls the key port and loads a key or waits (45_keypad_timers.md R174). -/
theorem completes_takeKeyOrWait {i : Instr} (hi : KeyInstr i) (s : State) (x : Reg) :
    Completes i s (s.refresh.takeKeyOrWait x) := by
  unfold State.takeKeyOrWait
  split
  · exact .key hi _ _ _ _
  · exact .key hi _ _ _ _

theorem completes_storeAtIndex {i : Instr} (hi : ∃ x, i = .ldBVx x ∨ i = .ldMemVx x) {s : State} {bytes : List Byte}
    (hf : rangeFault s bytes.length = none) (op : Word) : Completes i s (s.storeAtIndex op bytes) := by
  rw [State.storeAtIndex, ifInRange_of_rangeFault_none hf]
  exact .memory hi _ _

/-- An instruction that does not meet its fault condition completes. -/
theorem exec_of_faultOf_none {i : Instr} {s : State} (hf : faultOf s i = none) :
    ∃ t, exec i s = .next t ∧ Completes i s t := by
  cases i with
  | jp | seVxKk | sneVxKk | seVxVy | sneVxVy | jpV0Nnn => exact ⟨_, rfl, .registers _ _⟩
  | ldVxKk | addVxKk | ldVxVy | orVxVy | andVxVy | xorVxVy | ldVxDt => exact ⟨_, rfl, .registers _ _⟩
  | addVxVy | subVxVy | shrVx | subnVxVy | shlVx => exact ⟨_, rfl, .registers _ _⟩
  | ldVxMem x =>
    exact ⟨_, congrArg Host.Outcome.next (ifInRange_of_rangeFault_none hf _ _), .registers _ _⟩
  | ldINnn nnn => exact ⟨_, rfl, .index (.inl ⟨nnn, rfl⟩) _ _⟩
  | addIVx x => exact ⟨_, rfl, .index (.inr ⟨x, .inl rfl⟩) _ _⟩
  | ldFVx x => exact ⟨_, rfl, .index (.inr ⟨x, .inr rfl⟩) _ _⟩
  | ret =>
    have hsp : s.sp.val ≠ 0 := by simpa [faultOf] using hf
    exact ⟨_, congrArg Host.Outcome.next (if_neg hsp), .pop rfl _ _⟩
  | call nnn =>
    have hsp : s.sp.val ≠ 16 := by simpa [faultOf] using hf
    refine ⟨_, congrArg Host.Outcome.next (if_neg hsp), ?_⟩
    rw [pushStack_of_lt s _ (by omega)]
    exact .push ⟨nnn, rfl⟩ _ _ _
  | ldDtVx x => exact ⟨_, rfl, .delayTimer ⟨x, rfl⟩ _ _⟩
  | ldStVx x => exact ⟨_, rfl, .soundTimer ⟨x, rfl⟩ _ _⟩
  | skpVx x => exact ⟨_, rfl, completes_keySkip ⟨x, .inl rfl⟩ s x true⟩
  | sknpVx x => exact ⟨_, rfl, completes_keySkip ⟨x, .inr (.inl rfl)⟩ s x false⟩
  | ldVxK x => exact ⟨_, rfl, completes_takeKeyOrWait ⟨x, .inr (.inr rfl)⟩ s x⟩
  | rndVxKk x kk => exact ⟨_, rfl, .random ⟨x, kk, rfl⟩ _ _ _⟩
  | ldBVx x => exact ⟨_, rfl, completes_storeAtIndex (bytes := bcdDigits (s.getV x)) ⟨x, .inl rfl⟩ hf _⟩
  | ldMemVx x =>
    rw [faultOf, ← length_regsUpTo s x] at hf
    exact ⟨_, rfl, completes_storeAtIndex ⟨x, .inr rfl⟩ hf _⟩
  | cls => exact ⟨_, rfl, .display (.inl rfl) _ _ _ _⟩
  | drwVxVyN x y n =>
    exact ⟨_, congrArg Host.Outcome.next (ifInRange_of_rangeFault_none hf _ _),
      .display (.inr ⟨x, y, n, rfl⟩) _ _ _ _⟩

/-- The two things an instruction can do: raise its own fault, or complete. -/
theorem exec_cases {i : Instr} {s t : State} (h : exec i s = .next t) :
    (∃ f a, faultOf s i = some (f, a) ∧ t = s.raise f (encode i) a) ∨ (faultOf s i = none ∧ Completes i s t) := by
  rcases hf : faultOf s i with _ | ⟨f, a⟩
  · obtain ⟨u, hu, hc⟩ := exec_of_faultOf_none hf
    cases hu.symm.trans h
    exact .inr ⟨rfl, hc⟩
  · cases (exec_of_faultOf_some hf).symm.trans h
    exact .inl ⟨f, a, rfl, rfl⟩

/-- Settles O50: a fault writes the five fault registers only, and a completed instruction the elements of its group
(`Completes`). -/
theorem eachElementHasItsOwnWriters : Obligations.EachElementHasItsOwnWriters := by
  unfold Obligations.EachElementHasItsOwnWriters
  intro i s t h
  rcases exec_cases h with ⟨f, a, hf, rfl⟩ | ⟨-, hc⟩
  · simp [hf]
  · cases hc with
    | registers => simp
    | index hi => simp [hi]
    | pop hi => simp [hi]
    | push hi => simp [hi]
    | delayTimer hi => simp [hi]
    | soundTimer hi => simp [hi]
    | key hi => simp [hi]
    | random hi => simp [hi]
    | memory hi => simp [hi]
    | display hi => simp [hi]

end Sys2Proof.Proofs
end

section
/-! PROOFS. A word that decodes is the word of its instruction (30_encoding.md R83): what a fault records as FAULT_OP is the
fetched word. -/

namespace Sys2Proof.Proofs

open Sys2Proof.Laws

theorem formatA_of_fieldO1 {op : Word} (o : Nibble) (h : (fieldO1 op).toNat = o.toNat) :
    formatA o (fieldNnn op) = op := by
  rw [← BitVec.eq_of_toNat_eq h, formatA_fields]

theorem formatXK_of_fields {op : Word} (o : Nibble) (kk : Byte) (h : (fieldO1 op).toNat = o.toNat)
    (hk : (fieldKk op).toNat = kk.toNat) : formatXK o (fieldX op) kk = op := by
  rw [← BitVec.eq_of_toNat_eq h, ← BitVec.eq_of_toNat_eq hk, formatXK_fields]

theorem formatXY_of_fields {op : Word} (o f : Nibble) (h : (fieldO1 op).toNat = o.toNat)
    (hf : (fieldO4 op).toNat = f.toNat) : formatXY o (fieldX op) (fieldY op) f = op := by
  rw [← BitVec.eq_of_toNat_eq h, ← BitVec.eq_of_toNat_eq hf, formatXY_fields]

/-! ### The groups that share a primary opcode -/

theorem encode_of_decodeGroup0 {op : Word} {i : Instr} (h : decodeGroup0 op = .ok i) : encode i = op := by
  unfold decodeGroup0 at h
  split at h
  · next hop => cases h; exact hop.symm
  split at h
  · next hop => cases h; exact hop.symm
  · cases h

/-- `mk` is the instruction of row `o`xy0. -/
theorem encode_of_decodeXY0 {op : Word} {i : Instr} {o : Nibble} {mk : Reg → Reg → Instr}
    (hmk : ∀ x y, encode (mk x y) = formatXY o x y 0) (ho : (fieldO1 op).toNat = o.toNat)
    (h : decodeXY0 op mk = .ok i) : encode i = op := by
  unfold decodeXY0 at h
  split at h
  · next hf => cases h; rw [hmk, formatXY_of_fields o 0 ho (congrArg BitVec.toNat hf)]
  · cases h

theorem encode_of_decodeGroup8 {op : Word} {i : Instr} (ho : (fieldO1 op).toNat = 0x8)
    (h : decodeGroup8 op = .ok i) : encode i = op := by
  unfold decodeGroup8 at h
  split at h <;> cases h <;> next hf => exact formatXY_of_fields 0x8 _ ho hf

theorem encode_of_decodeGroupE {op : Word} {i : Instr} (ho : (fieldO1 op).toNat = 0xE)
    (h : decodeGroupE op = .ok i) : encode i = op := by
  unfold decodeGroupE at h
  split at h <;> cases h <;> next hk => exact formatXK_of_fields 0xE _ ho hk

theorem encode_of_decodeGroupF {op : Word} {i : Instr} (ho : (fieldO1 op).toNat = 0xF)
    (h : decodeGroupF op = .ok i) : encode i = op := by
  unfold decodeGroupF at h
  split at h <;> cases h <;> next hk => exact formatXK_of_fields 0xF _ ho hk

/-- The word an instruction is decoded from is its encoding. -/
theorem encode_of_decode {op : Word} {i : Instr} (h : decode op = .ok i) : encode i = op := by
  unfold decode at h
  split at h
  case h_1 => exact encode_of_decodeGroup0 h
  case h_2 ho => cases h; exact formatA_of_fieldO1 0x1 ho
  case h_3 ho => cases h; exact formatA_of_fieldO1 0x2 ho
  case h_4 ho => cases h; exact formatXK_of_fields 0x3 _ ho rfl
  case h_5 ho => cases h; exact formatXK_of_fields 0x4 _ ho rfl
  case h_6 ho => exact encode_of_decodeXY0 (o := 0x5) (fun _ _ => rfl) ho h
  case h_7 ho => cases h; exact formatXK_of_fields 0x6 _ ho rfl
  case h_8 ho => cases h; exact formatXK_of_fields 0x7 _ ho rfl
  case h_9 ho => exact encode_of_decodeGroup8 ho h
  case h_10 ho => exact encode_of_decodeXY0 (o := 0x9) (fun _ _ => rfl) ho h
  case h_11 ho => cases h; exact formatA_of_fieldO1 0xA ho
  case h_12 ho => cases h; exact formatA_of_fieldO1 0xB ho
  case h_13 ho => cases h; exact formatXK_of_fields 0xC _ ho rfl
  case h_14 ho =>
    cases h
    have hn : (fieldO4 op).toNat = (BitVec.ofNat 4 (fieldN op)).toNat := by simp [fieldN]
    exact formatXY_of_fields 0xD _ ho hn
  case h_15 ho => exact encode_of_decodeGroupE ho h
  case h_16 ho => exact encode_of_decodeGroupF ho h
  case h_17 => cases h

end Sys2Proof.Proofs
end

section
/-! PROOFS. Where an instruction leaves PC (40_step_cycle.md R103). -/

namespace Sys2Proof.Proofs

open Sys2Proof.Machine Sys2Proof.Claims Sys2Proof.Laws

theorem toNat_newPc_next (pc : Word) : (Control.newPc pc .next).toNat = (pc.toNat + 2) % 65536 :=
  BitVec.toNat_ofNat _ _

theorem toNat_newPc_skip (pc : Word) : (Control.newPc pc .skip).toNat = (pc.toNat + 4) % 65536 :=
  BitVec.toNat_ofNat _ _

theorem toNat_newPc_jump (pc : Word) (a : Nat) : (Control.newPc pc (.jump a)).toNat = a % 65536 :=
  BitVec.toNat_ofNat _ _

/-- The PC an instruction can leave: its own address (a fault, or a waiting LD Vx,K), or that of its class. -/
inductive PcMove (i : Instr) (s : State) : Word → Prop
  | stay : PcMove i s s.pc
  | next : PcMove i s (Control.newPc s.pc .next)
  | skip : PcMove i s (Control.newPc s.pc .skip)
  | jump (a : Nat) (h : jumpTarget s i = some a) : PcMove i s (Control.newPc s.pc (.jump a))

theorem pcMove_skipIf (i : Instr) (s : State) (b : Bool) : PcMove i s (Control.newPc s.pc (skipIf b)) := by
  cases b with
  | false => exact .next
  | true => exact .skip

theorem pcMove_ifInRange {i : Instr} {s t : State} (ht : PcMove i s t.pc) (a n : Nat) (op : Word) :
    PcMove i s (s.ifInRange a n op t).pc := by
  rcases ifInRange_cases s t a n op with ⟨-, h⟩ | ⟨-, -, h⟩
  · rw [h]; exact ht
  · rw [h]; exact .stay

theorem pcMove_keySkip (i : Instr) (s : State) (x : Reg) (skipOn : Bool) : PcMove i s (s.keySkip x skipOn).pc := by
  simp only [State.keySkip]
  split
  · exact pcMove_skipIf i s _
  · exact pcMove_skipIf i s _

theorem pcMove_takeKeyOrWait (i : Instr) (s : State) (x : Reg) : PcMove i s (s.refresh.takeKeyOrWait x).pc := by
  unfold State.takeKeyOrWait
  split
  · exact .next
  · rw [finish_pc, newPc_jump_toNat]; exact .stay

@[simp] theorem toNat_zextAddr (nnn : Addr12) : (zextAddr nnn).toNat = nnn.toNat := by
  have := nnn.isLt
  simp [zextAddr]
  omega

/-- The 16-bit sum of JP V0,nnn does not wrap. -/
theorem toNat_indexedTarget (s : State) (nnn : Addr12) :
    (s.indexedTarget nnn).toNat = nnn.toNat + (s.getV 0).toNat := by
  have := nnn.isLt
  have := (s.getV 0).isLt
  simp [State.indexedTarget, zextByte, BitVec.toNat_add]
  omega

theorem pcMove_of_exec {i : Instr} {s t : State} (h : exec i s = .next t) : PcMove i s t.pc := by
  cases i with
  | cls | ldVxKk | addVxKk | ldVxVy | orVxVy | andVxVy | xorVxVy | addVxVy | subVxVy | shrVx | subnVxVy | shlVx =>
    cases h; exact .next
  | ldINnn | rndVxKk | ldVxDt | ldDtVx | ldStVx | addIVx | ldFVx => cases h; exact .next
  | drwVxVyN | ldBVx | ldMemVx | ldVxMem => cases h; exact pcMove_ifInRange .next _ _ _
  | seVxKk | sneVxKk | seVxVy | sneVxVy => cases h; exact pcMove_skipIf _ s _
  | skpVx | sknpVx => cases h; exact pcMove_keySkip _ s _ _
  | ldVxK x => cases h; exact pcMove_takeKeyOrWait _ s x
  | jp nnn => cases h; exact .jump _ (congrArg some (toNat_zextAddr nnn).symm)
  | jpV0Nnn nnn => cases h; exact .jump _ (congrArg some (toNat_indexedTarget s nnn).symm)
  | ret =>
    cases h
    split
    · exact .stay
    · exact .jump _ rfl
  | call nnn =>
    cases h
    split
    · exact .stay
    · rw [finish_pc, pushStack_pc]; exact .jump _ (congrArg some (toNat_zextAddr nnn).symm)

end Sys2Proof.Proofs
end

section
/-! PROOFS. The invariant of every run (Safety.Inv): a raised fault, a completed instruction and the timer ticks keep it. -/

namespace Sys2Proof.Proofs

open Sys2Proof.Machine Sys2Proof.Claims Sys2Proof.Laws Sys2Proof.Safety

/-! ### The fault an instruction raises (60_exceptions.md R180) -/

/-- An address is recorded for MemRange only. -/
theorem fault_of_faultOf {i : Instr} {s : State} {f : FaultCode} {a : Nat} (hf : faultOf s i = some (f, a)) :
    (f = .memRange ∧ a = max s.i.toNat memSize) ∨ (f = .stackOverflow ∧ a = 0) ∨ (f = .stackUnderflow ∧ a = 0) := by
  cases i with
  | ret =>
    obtain ⟨-, hfa⟩ := Option.ite_none_right_eq_some.mp hf
    cases hfa
    exact .inr (.inr ⟨rfl, rfl⟩)
  | call =>
    obtain ⟨-, hfa⟩ := Option.ite_none_right_eq_some.mp hf
    cases hfa
    exact .inr (.inl ⟨rfl, rfl⟩)
  | drwVxVyN | ldBVx | ldMemVx | ldVxMem =>
    obtain ⟨-, hfa⟩ := Option.ite_none_right_eq_some.mp hf
    cases hfa
    exact .inl ⟨rfl, rfl⟩
  | _ => cases hf

/-- A fault of a running engine below the halt limit, recorded with the fetched word. -/
theorem inv_raise {s : State} (hs : Inv s) (hpc : s.pc.toNat < haltLimit) {f : FaultCode} {a : Nat} (hf : f ≠ .none)
    (hmem : f = .memRange → a = max s.i.toNat memSize) (hother : f ≠ .memRange → a = 0) :
    Inv (s.raise f s.fetch a) where
  memCanonical := hs.memCanonical
  pcBound := hs.pcBound
  stackBound := hs.stackBound
  runningClear h := by cases h
  faultedRecord _ := by
    refine ⟨hf, rfl, rfl, hpc, fun h => ?_, fun h => ?_⟩
    · have hi := s.i.isLt
      have hm : memSize = 4096 := rfl
      rw [raise_faultAddr, hmem h, BitVec.toNat_ofNat, Nat.mod_eq_of_lt (by omega), raise_i]
    · exact congrArg (BitVec.ofNat 17) (hother h)

/-! ### What a completed instruction leaves -/

theorem completes_runState {i : Instr} {s t : State} (h : Completes i s t) : t.runState = s.runState := by
  cases h <;> rfl

theorem completes_faultRegs {i : Instr} {s t : State} (h : Completes i s t) :
    t.faultCode = s.faultCode ∧ t.faultPc = s.faultPc ∧ t.faultOp = s.faultOp ∧ t.faultAddr = s.faultAddr := by
  cases h <;> exact ⟨rfl, rfl, rfl, rfl⟩

theorem wf_storeAtIndex {s : State} (hm : s.mem.wf) (op : Word) (bytes : List Byte) :
    (s.storeAtIndex op bytes).mem.wf := by
  unfold State.storeAtIndex
  rcases ifInRange_cases s (State.finish { s with mem := s.mem.writeBytes (s.dataAddr 0) bytes } .next)
    (s.dataAddr 0) bytes.length op with ⟨hfit, h⟩ | ⟨-, -, h⟩
  · rw [h]
    rcases hfit with hn | hfit
    · rw [List.length_eq_zero_iff.mp hn]; exact hm
    · exact wf_writeBytes bytes s.mem hm _ hfit
  · rw [h]; exact hm

theorem wf_mem_of_exec {i : Instr} {s t : State} (hm : s.mem.wf) (h : exec i s = .next t) : t.mem.wf := by
  obtain ⟨-, -, -, -, -, -, -, -, hwriter, -⟩ := eachElementHasItsOwnWriters i s t h
  by_cases hsame : t.mem = s.mem
  · rw [hsame]; exact hm
  · obtain ⟨x, rfl | rfl⟩ := hwriter hsame
    · cases h; exact wf_storeAtIndex hm _ _
    · cases h; exact wf_storeAtIndex hm _ _

theorem stack_pushStack (s : State) (w : Word) (j : Fin 16) :
    (s.pushStack w).stack[j] = s.stack[j] ∨ (s.pushStack w).stack[j] = w := by
  unfold State.pushStack
  split
  · simp only [Fin.getElem_fin, Vector.getElem_set]
    split
    · exact .inr rfl
    · exact .inl rfl
  · exact .inl rfl

/-- Only CALL changes the stack, and what it pushes is the address after it. -/
theorem stack_of_exec {i : Instr} {s t : State} (h : exec i s = .next t) (j : Fin 16) :
    t.stack[j] = s.stack[j] ∨ t.stack[j] = s.returnAddr := by
  obtain ⟨-, hwriter, -⟩ := eachElementHasItsOwnWriters i s t h
  by_cases hsame : t.stack = s.stack
  · rw [hsame]; exact .inl rfl
  · obtain ⟨nnn, rfl⟩ := hwriter hsame
    cases h
    split
    · exact .inl rfl
    · exact stack_pushStack s _ j

theorem jumpTarget_le {i : Instr} {s : State} {a : Nat} (hs : Inv s) (h : jumpTarget s i = some a) : a ≤ 0x10FE := by
  cases i with
  | ret =>
    cases h
    exact (hs.stackBound ⟨s.sp.val - 1, by omega⟩).trans (by decide)
  | jp nnn | call nnn => cases h; have := nnn.isLt; omega
  | jpV0Nnn nnn => cases h; have := nnn.isLt; have := (s.getV 0).isLt; omega
  | _ => cases h

theorem pc_le_of_pcMove {i : Instr} {s : State} {pc : Word} (hs : Inv s) (hpc : s.pc.toNat < haltLimit)
    (h : PcMove i s pc) : pc.toNat ≤ 0x10FE := by
  have hl : haltLimit = 4094 := rfl
  cases h with
  | stay => omega
  | next => rw [toNat_newPc_next]; omega
  | skip => rw [toNat_newPc_skip]; omega
  | jump a ha => rw [toNat_newPc_jump]; exact (Nat.mod_le _ _).trans (jumpTarget_le hs ha)

/-! ### The step -/

theorem inv_exec {i : Instr} {s t : State} (hs : Inv s) (hrun : s.runState = .running) (hpc : s.pc.toNat < haltLimit)
    (hd : decode s.fetch = .ok i) (h : exec i s = .next t) : Inv t := by
  rcases exec_cases h with ⟨f, a, hf, rfl⟩ | ⟨-, hc⟩
  · rw [encode_of_decode hd]
    rcases fault_of_faultOf hf with ⟨rfl, rfl⟩ | ⟨rfl, rfl⟩ | ⟨rfl, rfl⟩
    · exact inv_raise hs hpc (by decide) (fun _ => rfl) (fun hne => absurd rfl hne)
    · exact inv_raise hs hpc (by decide) (fun he => by cases he) (fun _ => rfl)
    · exact inv_raise hs hpc (by decide) (fun he => by cases he) (fun _ => rfl)
  · have hrun' : t.runState = .running := (completes_runState hc).trans hrun
    obtain ⟨hcode, hfpc, hop, haddr⟩ := completes_faultRegs hc
    exact
      { memCanonical := wf_mem_of_exec hs.memCanonical h
        pcBound := pc_le_of_pcMove hs hpc (pcMove_of_exec h)
        stackBound := fun j => by
          have hl : haltLimit = 4094 := rfl
          rcases stack_of_exec h j with hj | hj
          · rw [hj]; exact hs.stackBound j
          · rw [hj, State.returnAddr, toNat_newPc_next]; omega
        runningClear := fun _ => by rw [hcode, hfpc, hop, haddr]; exact hs.runningClear hrun
        faultedRecord := fun hfault => by rw [hrun'] at hfault; cases hfault }

/-- The engine's step keeps the invariant. -/
theorem inv_engineStep {s t : State} (hs : Inv s) (h : engineStep s = .next t) : Inv t := by
  rcases engineStep_cases s with ⟨-, he⟩ | ⟨-, -, he⟩ | ⟨-, hpc, -, he⟩ | ⟨hrun, hpc, i, hd, he⟩
  · cases he.symm.trans h; exact hs
  · cases he.symm.trans h; exact hs
  · cases he.symm.trans h
    exact inv_raise hs hpc (by decide) (fun hm => by cases hm) (fun _ => rfl)
  · exact inv_exec hs hrun hpc hd (he.symm.trans h)

/-- The timers and their feeds are no part of the invariant. -/
theorem inv_ticksBetweenSteps {s : State} (hs : Inv s) : Inv s.ticksBetweenSteps :=
  ⟨hs.memCanonical, hs.pcBound, hs.stackBound, hs.runningClear, hs.faultedRecord⟩

/-- Settles O59: the engine's step keeps the invariant (a fault records the fetched word, a completed instruction leaves the
fault registers clear), and the ticks after it do not touch it. -/
theorem stepKeepsTheInvariant : Obligations.StepKeepsTheInvariant := by
  unfold Obligations.StepKeepsTheInvariant
  intro s t hs h
  obtain ⟨u, hu, rfl⟩ := (step_next s t).mp h
  exact inv_ticksBetweenSteps (inv_engineStep hs hu)

/-- Settles O58: nothing is listed in memory, PC is 0x200, the stack and the fault registers are 0. -/
theorem resetStateMeetsTheInvariant : Obligations.ResetStateMeetsTheInvariant where
  memCanonical := wf_nil
  pcBound := by decide
  stackBound := by decide
  runningClear _ := ⟨rfl, rfl, rfl, rfl⟩
  faultedRecord h := by cases h

end Sys2Proof.Proofs
end

section
/-! PROOFS. The parity of PC, and the halted engine (10_state.md R25, R26). -/

namespace Sys2Proof.Proofs

open Sys2Proof.Machine Sys2Proof.Claims Sys2Proof.Laws Sys2Proof.Safety

/-! ### Parity -/

theorem even_of_pcMove {i : Instr} {s : State} {pc : Word} (hs : s.pc.toNat % 2 = 0)
    (htarget : ∀ a, jumpTarget s i = some a → a % 2 = 0) (h : PcMove i s pc) : pc.toNat % 2 = 0 := by
  cases h with
  | stay => exact hs
  | next => rw [toNat_newPc_next]; omega
  | skip => rw [toNat_newPc_skip]; omega
  | jump a ha => have := htarget a ha; rw [toNat_newPc_jump]; omega

/-- Settles O54: a step that runs no instruction leaves PC, and an instruction moves it by 0, 2, 4 or to its target. -/
theorem evenPcStaysEven : Obligations.EvenPcStaysEven := by
  unfold Obligations.EvenPcStaysEven
  intro s t h hs htarget
  rcases engineStep_cases s with ⟨-, he⟩ | ⟨-, -, he⟩ | ⟨-, -, -, he⟩ | ⟨-, -, i, hd, he⟩
  · cases he.symm.trans h; exact hs
  · cases he.symm.trans h; exact hs
  · cases he.symm.trans h; exact hs
  · exact even_of_pcMove hs (fun a => htarget i a hd) (pcMove_of_exec (he.symm.trans h))

/-! ### An idle engine -/

/-- The timers have counted down, their feeds have gone on, and nothing else is different. -/
def OnlyTimersRan (s t : State) : Prop :=
  t.dt.toNat ≤ s.dt.toNat ∧ t.st.toNat ≤ s.st.toNat ∧
  t = { s with dt := t.dt, st := t.st, delayFeed := t.delayFeed, soundFeed := t.soundFeed }

theorem onlyTimersRan_refl (s : State) : OnlyTimersRan s s := ⟨le_rfl, le_rfl, rfl⟩

theorem onlyTimersRan_ticks {s t : State} (h : OnlyTimersRan s t) : OnlyTimersRan s t.ticksBetweenSteps := by
  obtain ⟨hdt, hst, ht⟩ := h
  refine ⟨?_, ?_, congrArg State.ticksBetweenSteps ht⟩
  · rw [ticksBetweenSteps_dt, tickTimes_toNat]; omega
  · rw [ticksBetweenSteps_st, tickTimes_toNat]; omega

/-- An engine that does nothing, however far the timers have run, does nothing in a run of any length. -/
theorem exists_runsTo_of_idle {s : State} (hidle : ∀ u, OnlyTimersRan s u → engineStep u = .next u) (n : Nat) :
    ∃ t, RunsTo n s t ∧ OnlyTimersRan s t := by
  suffices h : ∀ u, OnlyTimersRan s u → ∃ t, RunsTo n u t ∧ OnlyTimersRan s t from h s (onlyTimersRan_refl s)
  induction n with
  | zero => exact fun u hu => ⟨u, (runsTo_zero u u).mpr rfl, hu⟩
  | succ n ih =>
    intro u hu
    obtain ⟨t, ht, hst⟩ := ih u.ticksBetweenSteps (onlyTimersRan_ticks hu)
    have hstep : step u = .next u.ticksBetweenSteps := (step_next _ _).mpr ⟨u, hidle u hu, rfl⟩
    exact ⟨t, (runsTo_succ n u t _ hstep).mpr ht, hst⟩

theorem engineStep_of_endedNormally {s : State} (h : EndedNormally s) : engineStep s = .next s := by
  obtain ⟨-, hpc⟩ := h
  rcases engineStep_cases s with ⟨-, he⟩ | ⟨-, -, he⟩ | ⟨-, hlt, -⟩ | ⟨-, hlt, -⟩
  · exact he
  · exact he
  · omega
  · omega

theorem endedNormally_of_onlyTimersRan {s t : State} (hs : EndedNormally s) (h : OnlyTimersRan s t) :
    EndedNormally t := by
  obtain ⟨-, -, ht⟩ := h
  rw [ht]
  exact hs

theorem isHalted_of_endedNormally {s : State} (h : EndedNormally s) : s.isHalted = true := by
  obtain ⟨hrun, hpc⟩ := h
  simp [State.isHalted, State.atHaltLimit, State.isFaulted, hrun, hpc]

/-- Settles O9: a run that ended normally is idle, and the timers alone cannot change that. -/
theorem haltedEngineStaysHalted : Obligations.HaltedEngineStaysHalted := by
  unfold Obligations.HaltedEngineStaysHalted
  intro s n hrun hpc
  have hs : EndedNormally s := ⟨hrun, hpc⟩
  obtain ⟨t, ht, hst⟩ := exists_runsTo_of_idle
    (fun u hu => engineStep_of_endedNormally (endedNormally_of_onlyTimersRan hs hu)) n
  exact ⟨engineStep_of_endedNormally hs, isHalted_of_endedNormally hs, t, ht,
    endedNormally_of_onlyTimersRan hs hst, hst⟩

end Sys2Proof.Proofs
end

section
/-! PROOFS. The canonical form of memory, the font, and the state after reset (10_state.md R32, R37, R38). -/

namespace Sys2Proof.Proofs

open Sys2Proof.Machine Sys2Proof.Claims Sys2Proof.Laws

/-! ### A canonical memory is determined by what it reads as -/

/-- The cells of a canonical memory are the addresses that do not read as unlisted ones do. -/
theorem mem_iff_read {m : Memory} (hm : m.wf) (a : Nat) (v : Byte) :
    (a, v) ∈ m ↔ m.read a = v ∧ v ≠ unlisted a := by
  refine ⟨fun h => ⟨read_of_mem m hm a v h, (hm.2 _ h).2⟩, fun ⟨hread, hv⟩ => ?_⟩
  by_contra hnot
  refine hv (hread.symm.trans (read_of_forall_ne m a fun c hc hca => hnot ?_))
  rw [← hread, ← hca, read_of_mem m hm c.1 c.2 hc]
  exact hc

theorem nodup_of_wf {m : Memory} (hm : m.wf) : m.Nodup := hm.1.imp fun h => by rintro rfl; exact lt_irrefl _ h

/-- Settles O55: the two lists have the same cells, and each is sorted by address. -/
theorem memoriesThatReadAlikeAreEqual : Obligations.MemoriesThatReadAlikeAreEqual := by
  unfold Obligations.MemoriesThatReadAlikeAreEqual
  intro m n hm hn h
  have hcells : ∀ c, c ∈ m ↔ c ∈ n := fun ⟨a, v⟩ => by rw [mem_iff_read hm, mem_iff_read hn, h]
  have hperm : m.Perm n := (List.perm_ext_iff_of_nodup (nodup_of_wf hm) (nodup_of_wf hn)).mpr hcells
  exact hperm.eq_of_pairwise (fun c d _ _ hcd hdc => absurd hcd (lt_asymm hdc)) hm.1 hn.1

/-! ### The font -/

theorem font_eq_glyphTable : font = glyphTable.flatten := rfl

theorem unlisted_of_lt {a : Nat} (h : a < 80) : unlisted a = glyphTable.flatten.getD a 0 := by
  rw [unlisted, dif_pos (by rw [length_font]; exact h), ← font_eq_glyphTable, List.getD_eq_getElem]

theorem unlisted_of_le {a : Nat} (h : 80 ≤ a) : unlisted a = 0 := by
  rw [unlisted, dif_neg (by rw [length_font]; omega)]
  rfl

/-- Glyph `g` stands at `5 * g` of the font. -/
theorem getD_flatten_glyphTable : ∀ g < 16, ∀ k < 5,
    glyphTable.flatten.getD (5 * g + k) 0 = (glyphTable.getD g []).getD k 0 := by decide

/-- Settles O2: an empty memory reads as the font, and a font address is below the memory size as any other. -/
theorem fontLiesInOrdinaryMemory : Obligations.FontLiesInOrdinaryMemory := by
  unfold Obligations.FontLiesInOrdinaryMemory
  refine ⟨fun g k hg hk => ?_, fun m a v hm _ => ?_⟩
  · exact (unlisted_of_lt (by omega)).trans (getD_flatten_glyphTable g hg k hk)
  · rw [read_write m hm, if_pos rfl]

/-! ### Reset -/

theorem read_memAfterReset (fill : List Byte) (a : Nat) : (memAfterReset fill).read a =
    if 80 ≤ a ∧ a < 80 + (fill.take 4016).length then (fill.take 4016).getD (a - 80) 0 else unlisted a :=
  read_writeBytes _ [] wf_nil font.length (fill_fits fill) a

theorem read_memAfterReset_font (fill : List Byte) {a : Nat} (h : a < 80) :
    (memAfterReset fill).read a = glyphTable.flatten.getD a 0 := by
  rw [read_memAfterReset, if_neg (by omega), unlisted_of_lt h]

theorem read_memAfterReset_fill (fill : List Byte) {a : Nat} (h : 80 ≤ a) (h' : a < 4096) :
    (memAfterReset fill).read a = fill.getD (a - 80) 0 := by
  rw [read_memAfterReset, List.length_take]
  split
  · simp [List.getD_eq_getElem?_getD, show a - 80 < 4016 by omega]
  · rw [unlisted_of_le h, List.getD_eq_default _ _ (by omega)]

theorem cell_blankFrame (r c : Nat) : cell blankFrame r c = false := by
  simp [cell, blankFrame]

/-- Settles O1: every element but memory is that of the reset state, and memory holds the font and the fill. -/
theorem resetGivesEveryElementItsValue : Obligations.ResetGivesEveryElementItsValue := by
  unfold Obligations.ResetGivesEveryElementItsValue
  refine ⟨fun s fill => ⟨s.resetRequest fill, rfl, ?_⟩, rfl, rfl⟩
  exact ⟨fun r => Vector.getElem_replicate r.isLt, rfl, rfl, fun j => Vector.getElem_replicate j.isLt, rfl, rfl, rfl, rfl, fun a => read_memAfterReset_font fill,
    fun a => read_memAfterReset_fill fill, fun r c _ _ => cell_blankFrame r c, rfl, rfl, rfl, rfl, rfl⟩

end Sys2Proof.Proofs
end

section
/-! PROOFS. Which registers an instruction writes, and which it reads (10_state.md R21, R22). -/

namespace Sys2Proof.Proofs

open Sys2Proof.Machine Sys2Proof.Claims Sys2Proof.Laws

/-! ### The registers after a shared operation -/

@[simp] theorem getV_popStack (s : State) (q : Reg) : s.popStack.getV q = s.getV q := rfl

@[simp] theorem getV_pushStack (s : State) (w : Word) (q : Reg) : (s.pushStack w).getV q = s.getV q :=
  congrArg (fun v : Vector Byte 16 => v[q]) (pushStack_v s w)

theorem getV_writeResultThenFlag_ne (s : State) {x q : Reg} (r : AluResult) (hx : q ≠ x) (hq : q ≠ vf) :
    (s.writeResultThenFlag x r).getV q = s.getV q := by
  rw [getV_writeResultThenFlag, if_neg hq, if_neg hx]

@[simp] theorem getV_vf_writeResultThenFlag (s : State) (x : Reg) (r : AluResult) :
    (s.writeResultThenFlag x r).getV vf = r.flag := by
  rw [getV_writeResultThenFlag, if_pos rfl]

theorem getV_drawSprite (s : State) (px py : Byte) (sprite : List Byte) (q : Reg) :
    (s.drawSprite px py sprite).getV q =
      if q = vf then flagByte (draw s.fb px.toNat py.toNat sprite).coll else s.getV q :=
  getV_setV _ vf q _

@[simp] theorem getV_keySkip (s : State) (x : Reg) (skipOn : Bool) (q : Reg) :
    (s.keySkip x skipOn).getV q = s.getV q := by
  simp only [State.keySkip]
  split
  · rfl
  · rfl

theorem getV_takeKeyOrWait_ne (s : State) {x q : Reg} (h : q ≠ x) : (s.takeKeyOrWait x).getV q = s.getV q := by
  unfold State.takeKeyOrWait
  split
  · exact getV_setV_ne s _ h
  · rfl

theorem getV_ifInRange {s t : State} {q : Reg} (ht : t.getV q = s.getV q) (a n : Nat) (op : Word) :
    (s.ifInRange a n op t).getV q = s.getV q := by
  rcases ifInRange_cases s t a n op with ⟨-, h⟩ | ⟨-, -, h⟩
  · rw [h, ht]
  · rw [h, getV_raise]

@[simp] theorem getV_storeAtIndex (s : State) (op : Word) (bytes : List Byte) (q : Reg) :
    (s.storeAtIndex op bytes).getV q = s.getV q := by
  unfold State.storeAtIndex
  refine getV_ifInRange ?_ _ _ _
  rfl

/-! ### What an instruction writes -/

/-- A register that is not a destination, nor VF under a flag writer, keeps its value. -/
theorem getV_of_exec {i : Instr} {s t : State} {r : Reg} (h : exec i s = .next t) (hdest : writesReg i r = false)
    (hflag : flagWriter i = true → r ≠ vf) : t.getV r = s.getV r := by
  cases i with
  | cls | jp | jpV0Nnn | seVxKk | sneVxKk | seVxVy | sneVxVy => cases h; rfl
  | ldINnn | addIVx | ldFVx | ldDtVx | ldStVx => cases h; rfl
  | ret =>
    cases h
    split
    · rfl
    · rfl
  | call =>
    cases h
    split
    · rfl
    · exact getV_pushStack s _ r
  | skpVx | sknpVx => cases h; exact getV_keySkip s _ _ r
  | ldVxK => cases h; exact getV_takeKeyOrWait_ne _ (ne_of_beq_false hdest)
  | ldVxKk | addVxKk | ldVxVy | orVxVy | andVxVy | xorVxVy | rndVxKk | ldVxDt =>
    cases h; exact getV_setV_ne _ _ (ne_of_beq_false hdest)
  | addVxVy | subVxVy | shrVx | subnVxVy | shlVx =>
    cases h; exact getV_writeResultThenFlag_ne s _ (ne_of_beq_false hdest) (hflag rfl)
  | drwVxVyN =>
    cases h
    refine getV_ifInRange ?_ _ _ _
    rw [getV_finish, getV_drawSprite, if_neg (hflag rfl)]
  | ldBVx | ldMemVx => cases h; exact getV_storeAtIndex s _ _ r
  | ldVxMem =>
    cases h
    refine getV_ifInRange ?_ _ _ _
    rw [getV_finish, getV_loadRegsUpTo, if_neg (of_decide_eq_false hdest)]

theorem flagByte_zero_or_one (b : Bool) : flagByte b = 0 ∨ flagByte b = 1 := by
  cases b with
  | false => exact .inl rfl
  | true => exact .inr rfl

/-- What a flag writer that does not fault leaves in VF. -/
theorem vf_of_flagWriter {i : Instr} {s t : State} (h : exec i s = .next t) (hi : flagWriter i = true)
    (hf : faultOf s i = none) : ∃ b, t.getV vf = flagByte b := by
  cases i with
  | addVxVy | subVxVy | shrVx | subnVxVy | shlVx => cases h; exact ⟨_, getV_vf_writeResultThenFlag s _ _⟩
  | drwVxVyN =>
    cases h
    rw [ifInRange_of_rangeFault_none hf]
    exact ⟨_, getV_drawSprite s _ _ _ vf⟩
  | _ => cases hi

/-- Settles O51: a changed register is a destination or a flag writer's VF, and VF is a flag byte after a flag writer. -/
theorem registersChangeOnlyAsDestinations : Obligations.RegistersChangeOnlyAsDestinations := by
  unfold Obligations.RegistersChangeOnlyAsDestinations
  refine fun i s t h => ⟨fun r hchanged => ?_, fun hi hf => ?_⟩
  · by_contra hnot
    rw [not_or, not_and, Bool.not_eq_true] at hnot
    exact hchanged (getV_of_exec h hnot.1 hnot.2)
  · obtain ⟨b, hb⟩ := vf_of_flagWriter h hi hf
    rw [show (15 : Reg) = vf from rfl, hb]
    exact flagByte_zero_or_one b

/-! ### Two runs that differ in one register -/

/-- `u` is `t` but for `V[r]`, and `V[r]` differs only where it was left alone: `b` in `u`, and as in `s` in `t`. -/
def SameButUnread (r : Reg) (b : Byte) (s t u : State) : Prop :=
  (∀ q, q ≠ r → u.getV q = t.getV q) ∧ u = { t with v := u.v } ∧
    (u.getV r = t.getV r ∨ (u.getV r = b ∧ t.getV r = s.getV r))

/-- `V[r]` is written by neither run. -/
theorem sameButUnread_of_kept {r : Reg} {b : Byte} {s t : State} (h : t.getV r = s.getV r) :
    SameButUnread r b s t (t.setV r b) :=
  ⟨fun _ hq => getV_setV_ne t b hq, rfl, .inr ⟨getV_setV_self t r b, h⟩⟩

section
variable {r : Reg} {b : Byte} {s t u : State} (h : SameButUnread r b s t u)
include h

theorem SameButUnread.finish (c : Control) : SameButUnread r b s (t.finish c) (u.finish c) := by
  obtain ⟨hother, heq, hr⟩ := h
  exact ⟨hother, congrArg (State.finish · c) heq, hr⟩

theorem SameButUnread.emitRedraw : SameButUnread r b s t.emitRedraw u.emitRedraw := by
  obtain ⟨hother, heq, hr⟩ := h
  exact ⟨hother, congrArg State.emitRedraw heq, hr⟩

/-- Both runs write `c` to `V[x]`; where `x` is `r` they agree from there on. -/
theorem SameButUnread.setV (x : Reg) (c : Byte) : SameButUnread r b s (t.setV x c) (u.setV x c) := by
  obtain ⟨hother, heq, hr⟩ := h
  refine ⟨fun q hq => ?_, congrArg (fun w : State => { w with v := (u.setV x c).v }) heq, ?_⟩
  · rw [getV_setV, getV_setV, hother q hq]
  · by_cases hx : r = x
    · rw [hx]; exact .inl (by simp)
    · rw [getV_setV_ne u c hx, getV_setV_ne t c hx]; exact hr

theorem SameButUnread.writeResultThenFlag (x : Reg) (res : AluResult) :
    SameButUnread r b s (t.writeResultThenFlag x res) (u.writeResultThenFlag x res) :=
  (h.setV x res.result).setV vf res.flag

/-- Both runs meet the same range, and raise the same fault where it leaves memory. -/
theorem SameButUnread.ifInRange (a n : Nat) (op : Word) :
    SameButUnread r b s (s.ifInRange a n op t) ((s.setV r b).ifInRange a n op u) := by
  unfold State.ifInRange
  cases firstOutOfRange a n with
  | none => exact h
  | some bad => exact sameButUnread_of_kept rfl

end

/-! ### The operations that read a register, and those that write several -/

theorem indexedTarget_setV_ne (s : State) {r : Reg} (b : Byte) (nnn : Addr12) (h : 0 ≠ r) :
    (s.setV r b).indexedTarget nnn = s.indexedTarget nnn := by
  rw [State.indexedTarget, getV_setV_ne s b h, State.indexedTarget]

theorem regsUpTo_setV_of_lt (s : State) {r x : Reg} (b : Byte) (h : x < r) :
    (s.setV r b).regsUpTo x = s.regsUpTo x := by
  refine List.ext_getElem (by rw [length_regsUpTo, length_regsUpTo]) fun k hk hk' => ?_
  rw [length_regsUpTo] at hk
  rw [getElem_regsUpTo, getElem_regsUpTo]
  exact getV_setV_ne s b (Fin.ne_of_lt (by rw [Fin.lt_def] at h ⊢; simp only; omega))

theorem keyMatches_setV_ne (s : State) {r x : Reg} (b : Byte) (h : x ≠ r) :
    (s.setV r b).keyMatches x = s.keyMatches x := by
  simp only [State.keyMatches, setV_key, getV_setV_ne s b h]

theorem keySkip_setV_ne (s : State) {r x : Reg} (b : Byte) (skipOn : Bool) (h : x ≠ r) :
    (s.setV r b).keySkip x skipOn = (s.keySkip x skipOn).setV r b := by
  have hm : (s.setV r b).refresh.keyMatches x = s.refresh.keyMatches x := keyMatches_setV_ne s.refresh b h
  simp only [State.keySkip, hm]
  split
  · rfl
  · rfl

theorem pushStack_of_not_lt (s : State) (w : Word) (h : ¬ s.sp.val < 16) : s.pushStack w = s := by
  rw [State.pushStack, dif_neg h]

theorem pushStack_setV (s : State) (r : Reg) (b : Byte) (w : Word) :
    (s.setV r b).pushStack w = (s.pushStack w).setV r b := by
  by_cases h : s.sp.val < 16
  · rw [pushStack_of_lt s w h, pushStack_of_lt (s.setV r b) w h]
    rfl
  · rw [pushStack_of_not_lt s w h, pushStack_of_not_lt (s.setV r b) w h]

theorem sameButUnread_takeKeyOrWait (s : State) (r x : Reg) (b : Byte) :
    SameButUnread r b s (s.takeKeyOrWait x) ((s.setV r b).takeKeyOrWait x) := by
  simp only [State.takeKeyOrWait, setV_key]
  split
  · exact ((sameButUnread_of_kept rfl).setV x _).finish _
  · exact sameButUnread_of_kept rfl

theorem sameButUnread_storeAtIndex (s : State) (r : Reg) (b : Byte) (op : Word) (bytes : List Byte) :
    SameButUnread r b s (s.storeAtIndex op bytes) ((s.setV r b).storeAtIndex op bytes) := by
  unfold State.storeAtIndex
  refine SameButUnread.ifInRange ?_ _ _ _
  exact sameButUnread_of_kept rfl

theorem sameButUnread_drawSprite (s : State) (r : Reg) (b px py : Byte) (sprite : List Byte) :
    SameButUnread r b s (s.drawSprite px py sprite) ((s.setV r b).drawSprite px py sprite) := by
  refine SameButUnread.emitRedraw (SameButUnread.setV ?_ vf _)
  exact sameButUnread_of_kept rfl

theorem sameButUnread_loadRegsUpTo (s : State) (r x : Reg) (b : Byte) (a : Nat) :
    SameButUnread r b s (s.loadRegsUpTo x a) ((s.setV r b).loadRegsUpTo x a) := by
  refine ⟨fun q hq => ?_, rfl, ?_⟩
  · rw [getV_loadRegsUpTo, getV_loadRegsUpTo, getV_setV_ne s b hq, setV_mem]
  · rw [getV_loadRegsUpTo, getV_loadRegsUpTo]
    by_cases hr : r ≤ x
    · simp [hr]
    · simp [hr]

/-! ### What an instruction reads -/

/-- An instruction that does not read `V[r]` does the same whatever `V[r]` holds. -/
theorem exec_setV_of_unread {i : Instr} {r : Reg} (hr : readsReg i r = false) (b : Byte) {s t : State}
    (h : exec i s = .next t) : ∃ u, exec i (s.setV r b) = .next u ∧ SameButUnread r b s t u := by
  cases i with
  | cls | jp | ldINnn => cases h; exact ⟨_, rfl, sameButUnread_of_kept rfl⟩
  | ret =>
    cases h
    refine ⟨_, rfl, ?_⟩
    by_cases hsp : s.sp.val = 0
    · rw [if_pos hsp, setV_sp, if_pos hsp]; exact sameButUnread_of_kept rfl
    · rw [if_neg hsp, setV_sp, if_neg hsp]; exact sameButUnread_of_kept rfl
  | call nnn =>
    cases h
    refine ⟨_, rfl, ?_⟩
    by_cases hsp : s.sp.val = 16
    · rw [if_pos hsp, setV_sp, if_pos hsp]; exact sameButUnread_of_kept rfl
    · rw [if_neg hsp, setV_sp, if_neg hsp, pushStack_setV]
      exact (sameButUnread_of_kept (getV_pushStack s _ r)).finish _
  | jpV0Nnn nnn =>
    cases h
    refine ⟨_, rfl, ?_⟩
    rw [indexedTarget_setV_ne s b nnn (ne_of_beq_false hr).symm]
    exact sameButUnread_of_kept rfl
  | seVxKk | sneVxKk | ldDtVx | ldStVx | addIVx | ldFVx =>
    cases h
    refine ⟨_, rfl, ?_⟩
    rw [getV_setV_ne s b (ne_of_beq_false hr).symm]
    exact sameButUnread_of_kept rfl
  | seVxVy | sneVxVy =>
    cases h
    obtain ⟨hx, hy⟩ := Bool.or_eq_false_iff.mp hr
    refine ⟨_, rfl, ?_⟩
    rw [getV_setV_ne s b (ne_of_beq_false hx).symm, getV_setV_ne s b (ne_of_beq_false hy).symm]
    exact sameButUnread_of_kept rfl
  | ldVxKk | ldVxDt => cases h; exact ⟨_, rfl, ((sameButUnread_of_kept rfl).setV _ _).finish _⟩
  | rndVxKk =>
    cases h
    exact ⟨_, rfl, ((sameButUnread_of_kept (t := s.takeRnd) rfl).setV _ _).finish _⟩
  | addVxKk | ldVxVy =>
    cases h
    refine ⟨_, rfl, ?_⟩
    rw [getV_setV_ne s b (ne_of_beq_false hr).symm]
    exact ((sameButUnread_of_kept rfl).setV _ _).finish _
  | orVxVy | andVxVy | xorVxVy =>
    cases h
    obtain ⟨hx, hy⟩ := Bool.or_eq_false_iff.mp hr
    refine ⟨_, rfl, ?_⟩
    rw [getV_setV_ne s b (ne_of_beq_false hx).symm, getV_setV_ne s b (ne_of_beq_false hy).symm]
    exact ((sameButUnread_of_kept rfl).setV _ _).finish _
  | shrVx | shlVx =>
    cases h
    refine ⟨_, rfl, ?_⟩
    rw [getV_setV_ne s b (ne_of_beq_false hr).symm]
    exact ((sameButUnread_of_kept rfl).writeResultThenFlag _ _).finish _
  | addVxVy | subVxVy | subnVxVy =>
    cases h
    obtain ⟨hx, hy⟩ := Bool.or_eq_false_iff.mp hr
    refine ⟨_, rfl, ?_⟩
    rw [getV_setV_ne s b (ne_of_beq_false hx).symm, getV_setV_ne s b (ne_of_beq_false hy).symm]
    exact ((sameButUnread_of_kept rfl).writeResultThenFlag _ _).finish _
  | drwVxVyN x y n =>
    cases h
    obtain ⟨hx, hy⟩ := Bool.or_eq_false_iff.mp hr
    refine ⟨_, rfl, ?_⟩
    rw [getV_setV_ne s b (ne_of_beq_false hx).symm, getV_setV_ne s b (ne_of_beq_false hy).symm]
    exact ((sameButUnread_drawSprite s r b _ _ _).finish _).ifInRange _ _ _
  | skpVx | sknpVx =>
    cases h
    refine ⟨_, rfl, ?_⟩
    rw [keySkip_setV_ne s b _ (ne_of_beq_false hr).symm]
    exact sameButUnread_of_kept (getV_keySkip s _ _ r)
  | ldVxK x => cases h; exact ⟨_, rfl, sameButUnread_takeKeyOrWait s.refresh r x b⟩
  | ldBVx =>
    cases h
    refine ⟨_, rfl, ?_⟩
    rw [getV_setV_ne s b (ne_of_beq_false hr).symm]
    exact sameButUnread_storeAtIndex s r b _ _
  | ldMemVx =>
    cases h
    refine ⟨_, rfl, ?_⟩
    rw [regsUpTo_setV_of_lt s b (not_le.mp (of_decide_eq_false hr))]
    exact sameButUnread_storeAtIndex s r b _ _
  | ldVxMem x =>
    cases h
    exact ⟨_, rfl, ((sameButUnread_loadRegsUpTo s r x b _).finish _).ifInRange _ _ _⟩

/-- Settles O52: the two runs differ in the unread register only, where both leave it alone. -/
theorem unreadRegisterHasNoInfluence : Obligations.UnreadRegisterHasNoInfluence := by
  unfold Obligations.UnreadRegisterHasNoInfluence
  exact fun i r b s t hr h => exec_setV_of_unread hr b h

end Sys2Proof.Proofs
end

section
/-! PROOFS. A load installs its stream at 0x200 (20_memory.md R62). -/

namespace Sys2Proof.Proofs

open Sys2Proof.Machine Sys2Proof.Claims Sys2Proof.Laws

/-- Settles O56: a stream that fits is written at 0x200 and nowhere else; the length test keeps any other from being written. -/
theorem loadInstallsTheStream : Obligations.LoadInstallsTheStream := by
  unfold Obligations.LoadInstallsTheStream
  intro s stream hm
  rcases load_cases s stream with ⟨hfit, hload⟩ | ⟨hover, hload⟩
  · have hlen : stream.length ≤ 3584 := Nat.le_of_add_le_add_left (a := 0x200) hfit
    have hread := read_writeBytes stream s.mem hm 0x200 hfit
    rw [hload]
    refine ⟨fun _ => ⟨rfl, fun k hk => ?inside, fun a ha => ?outside, rfl⟩, fun h => absurd hlen (by omega)⟩
    case inside => exact (hread (0x200 + k)).trans (by rw [if_pos (by omega), Nat.add_sub_cancel_left])
    case outside => exact (hread a).trans (if_neg (by omega))
  · have hlen : 3584 < stream.length := Nat.lt_of_add_lt_add_left (n := 0x200) hover
    exact ⟨fun h => absurd hlen (by omega), fun _ => hload⟩

end Sys2Proof.Proofs
end

section
/-! PROOFS. The decoder and the encoder are inverse to each other (30_encoding.md R83, R84). -/

namespace Sys2Proof.Proofs

open Sys2Proof.Laws

/-! ### The word of an instruction decodes to it -/

/-- Any row count at all: the field holds the count's low four bits. -/
theorem decode_encode_drwVxVyN (x y : Reg) (n : Nat) :
    decode (encode (.drwVxVyN x y n)) = .ok (.drwVxVyN x y (n % 16)) := by
  simp [encode, decode]

theorem decode_encode {i : Instr} (hi : i.wf = true) : decode (encode i) = .ok i := by
  cases i with
  | cls | ret => rfl
  | jp | call | ldINnn | jpV0Nnn => simp [encode, decode]
  | seVxKk | sneVxKk | ldVxKk | addVxKk | rndVxKk => simp [encode, decode]
  | seVxVy | sneVxVy => simp [encode, decode, decodeXY0]
  | ldVxVy | orVxVy | andVxVy | xorVxVy | addVxVy | subVxVy | shrVx | subnVxVy | shlVx =>
    simp [encode, decode, decodeGroup8]
  | drwVxVyN x y n =>
    have hn : n ≤ 15 := of_decide_eq_true hi
    rw [decode_encode_drwVxVyN, Nat.mod_eq_of_lt (by omega)]
  | skpVx | sknpVx => simp [encode, decode, decodeGroupE]
  | ldVxDt | ldVxK | ldDtVx | ldStVx | addIVx | ldFVx | ldBVx | ldMemVx | ldVxMem =>
    simp [encode, decode, decodeGroupF]

/-- Settles O3: each format's word gives its fields back, and a row count of at most 15 fits its field. -/
theorem encodedInstructionDecodesToItself : Obligations.EncodedInstructionDecodesToItself := by
  unfold Obligations.EncodedInstructionDecodesToItself
  exact fun _ hi => decode_encode hi

/-! ### A legal word is the word of a well-formed instruction -/

/-- DRW alone can be ill-formed, and the word of one with too many rows decodes to another. -/
theorem wf_of_decode {op : Word} {i : Instr} (h : decode op = .ok i) : i.wf = true := by
  cases i with
  | drwVxVyN x y n =>
    rw [← encode_of_decode h, decode_encode_drwVxVyN] at h
    have hn : n % 16 = n := by simpa using h
    exact decide_eq_true (show n ≤ 15 by omega)
  | _ => rfl

theorem decode_eq_ok_iff (op : Word) (i : Instr) : decode op = .ok i ↔ i.wf = true ∧ encode i = op := by
  refine ⟨fun h => ⟨wf_of_decode h, encode_of_decode h⟩, ?_⟩
  rintro ⟨hi, rfl⟩
  exact decode_encode hi

/-- Settles O4: the decoder takes each operand from the field it encodes to, and a row count from a 4-bit field. -/
theorem legalWordIsTheWordOfItsInstruction : Obligations.LegalWordIsTheWordOfItsInstruction := by
  unfold Obligations.LegalWordIsTheWordOfItsInstruction
  exact fun op i => (decode_eq_ok_iff op i).mp

end Sys2Proof.Proofs
end

section
/-! PROOFS. The rows of the opcode table select the instructions (30_encoding.md R83, R84, R85). -/

namespace Sys2Proof.Proofs

open Sys2Proof.Claims Sys2Proof.Laws

/-! ### An instruction's word matches its row -/

theorem rowOf_lt (i : Instr) : rowOf i < 34 := by
  cases i <;> simp [rowOf]

theorem tableRows_rowOf (i : Instr) : tableRows.getD (rowOf i) (0, 0) = TableRow.row i := by
  cases i <;> rfl

/-- One lemma of `TableRow` per row. -/
theorem encode_matches_row : ∀ i : Instr, TableRow.Statement i
  | .cls => TableRow.cls
  | .ret => TableRow.ret
  | .jp nnn => TableRow.jp nnn
  | .call nnn => TableRow.call nnn
  | .seVxKk x kk => TableRow.seVxKk x kk
  | .sneVxKk x kk => TableRow.sneVxKk x kk
  | .seVxVy x y => TableRow.seVxVy x y
  | .ldVxKk x kk => TableRow.ldVxKk x kk
  | .addVxKk x kk => TableRow.addVxKk x kk
  | .ldVxVy x y => TableRow.ldVxVy x y
  | .orVxVy x y => TableRow.orVxVy x y
  | .andVxVy x y => TableRow.andVxVy x y
  | .xorVxVy x y => TableRow.xorVxVy x y
  | .addVxVy x y => TableRow.addVxVy x y
  | .subVxVy x y => TableRow.subVxVy x y
  | .shrVx x y => TableRow.shrVx x y
  | .subnVxVy x y => TableRow.subnVxVy x y
  | .shlVx x y => TableRow.shlVx x y
  | .sneVxVy x y => TableRow.sneVxVy x y
  | .ldINnn nnn => TableRow.ldINnn nnn
  | .jpV0Nnn nnn => TableRow.jpV0Nnn nnn
  | .rndVxKk x kk => TableRow.rndVxKk x kk
  | .drwVxVyN x y n => TableRow.drwVxVyN x y n
  | .skpVx x => TableRow.skpVx x
  | .sknpVx x => TableRow.sknpVx x
  | .ldVxDt x => TableRow.ldVxDt x
  | .ldVxK x => TableRow.ldVxK x
  | .ldDtVx x => TableRow.ldDtVx x
  | .ldStVx x => TableRow.ldStVx x
  | .addIVx x => TableRow.addIVx x
  | .ldFVx x => TableRow.ldFVx x
  | .ldBVx x => TableRow.ldBVx x
  | .ldMemVx x => TableRow.ldMemVx x
  | .ldVxMem x => TableRow.ldVxMem x

/-! ### A word that matches a row is the word of an instruction of that row -/

theorem eq_of_and_allOnes_eq {op w : Word} (h : op &&& (0xFFFF : Word) = w) : w = op := by
  rw [← h]
  exact BitVec.and_allOnes

theorem formatA_of_match {op : Word} (o : Nibble) (h : op &&& (0xF000 : Word) = o.setWidth 16 <<< 12) :
    formatA o (fieldNnn op) = op := by
  rw [← (and_maskO1_eq_iff op o).mp h, formatA_fields]

theorem formatXK_of_match {op : Word} (o : Nibble) (h : op &&& (0xF000 : Word) = o.setWidth 16 <<< 12) :
    formatXK o (fieldX op) (fieldKk op) = op := by
  rw [← (and_maskO1_eq_iff op o).mp h, formatXK_fields]

theorem formatXYN_of_match {op : Word} (o : Nibble) (h : op &&& (0xF000 : Word) = o.setWidth 16 <<< 12) :
    formatXY o (fieldX op) (fieldY op) (BitVec.ofNat 4 (fieldN op)) = op := by
  rw [← (and_maskO1_eq_iff op o).mp h, fieldN, BitVec.ofNat_toNat, BitVec.setWidth_eq, formatXY_fields]

theorem formatXY_of_match {op : Word} (o f : Nibble)
    (h : op &&& (0xF00F : Word) = o.setWidth 16 <<< 12 ||| f.setWidth 16) :
    formatXY o (fieldX op) (fieldY op) f = op := by
  obtain ⟨ho, hf⟩ := (and_maskXY_eq_iff op o f).mp h
  rw [← ho, ← hf, formatXY_fields]

theorem formatX_of_match {op : Word} (o : Nibble) (kk : Byte)
    (h : op &&& (0xF0FF : Word) = o.setWidth 16 <<< 12 ||| kk.setWidth 16) : formatXK o (fieldX op) kk = op := by
  obtain ⟨ho, hk⟩ := (and_maskX_eq_iff op o kk).mp h
  rw [← ho, ← hk, formatXK_fields]

/-- The instruction of each row, its operands being the fields of the word. -/
theorem exists_encode_of_match {op : Word} {k : Nat} (hk : k < 34)
    (h : op &&& (tableRows.getD k (0, 0)).1 = (tableRows.getD k (0, 0)).2) :
    ∃ i : Instr, i.wf = true ∧ rowOf i = k ∧ encode i = op := by
  interval_cases k
  · exact ⟨.cls, rfl, rfl, eq_of_and_allOnes_eq h⟩
  · exact ⟨.ret, rfl, rfl, eq_of_and_allOnes_eq h⟩
  · exact ⟨.jp _, rfl, rfl, formatA_of_match 0x1 h⟩
  · exact ⟨.call _, rfl, rfl, formatA_of_match 0x2 h⟩
  · exact ⟨.seVxKk _ _, rfl, rfl, formatXK_of_match 0x3 h⟩
  · exact ⟨.sneVxKk _ _, rfl, rfl, formatXK_of_match 0x4 h⟩
  · exact ⟨.seVxVy _ _, rfl, rfl, formatXY_of_match 0x5 0x0 h⟩
  · exact ⟨.ldVxKk _ _, rfl, rfl, formatXK_of_match 0x6 h⟩
  · exact ⟨.addVxKk _ _, rfl, rfl, formatXK_of_match 0x7 h⟩
  · exact ⟨.ldVxVy _ _, rfl, rfl, formatXY_of_match 0x8 0x0 h⟩
  · exact ⟨.orVxVy _ _, rfl, rfl, formatXY_of_match 0x8 0x1 h⟩
  · exact ⟨.andVxVy _ _, rfl, rfl, formatXY_of_match 0x8 0x2 h⟩
  · exact ⟨.xorVxVy _ _, rfl, rfl, formatXY_of_match 0x8 0x3 h⟩
  · exact ⟨.addVxVy _ _, rfl, rfl, formatXY_of_match 0x8 0x4 h⟩
  · exact ⟨.subVxVy _ _, rfl, rfl, formatXY_of_match 0x8 0x5 h⟩
  · exact ⟨.shrVx _ _, rfl, rfl, formatXY_of_match 0x8 0x6 h⟩
  · exact ⟨.subnVxVy _ _, rfl, rfl, formatXY_of_match 0x8 0x7 h⟩
  · exact ⟨.shlVx _ _, rfl, rfl, formatXY_of_match 0x8 0xE h⟩
  · exact ⟨.sneVxVy _ _, rfl, rfl, formatXY_of_match 0x9 0x0 h⟩
  · exact ⟨.ldINnn _, rfl, rfl, formatA_of_match 0xA h⟩
  · exact ⟨.jpV0Nnn _, rfl, rfl, formatA_of_match 0xB h⟩
  · exact ⟨.rndVxKk _ _, rfl, rfl, formatXK_of_match 0xC h⟩
  · have hn : fieldN op ≤ 15 := Nat.le_of_lt_succ (fieldO4 op).isLt
    exact ⟨.drwVxVyN _ _ _, decide_eq_true hn, rfl, formatXYN_of_match 0xD h⟩
  · exact ⟨.skpVx _, rfl, rfl, formatX_of_match 0xE 0x9E h⟩
  · exact ⟨.sknpVx _, rfl, rfl, formatX_of_match 0xE 0xA1 h⟩
  · exact ⟨.ldVxDt _, rfl, rfl, formatX_of_match 0xF 0x07 h⟩
  · exact ⟨.ldVxK _, rfl, rfl, formatX_of_match 0xF 0x0A h⟩
  · exact ⟨.ldDtVx _, rfl, rfl, formatX_of_match 0xF 0x15 h⟩
  · exact ⟨.ldStVx _, rfl, rfl, formatX_of_match 0xF 0x18 h⟩
  · exact ⟨.addIVx _, rfl, rfl, formatX_of_match 0xF 0x1E h⟩
  · exact ⟨.ldFVx _, rfl, rfl, formatX_of_match 0xF 0x29 h⟩
  · exact ⟨.ldBVx _, rfl, rfl, formatX_of_match 0xF 0x33 h⟩
  · exact ⟨.ldMemVx _, rfl, rfl, formatX_of_match 0xF 0x55 h⟩
  · exact ⟨.ldVxMem _, rfl, rfl, formatX_of_match 0xF 0x65 h⟩

theorem match_iff_decode (op : Word) {k : Nat} (hk : k < 34) :
    op &&& (tableRows.getD k (0, 0)).1 = (tableRows.getD k (0, 0)).2 ↔ ∃ i, decode op = .ok i ∧ rowOf i = k := by
  constructor
  · intro h
    obtain ⟨i, hwf, hrow, hop⟩ := exists_encode_of_match hk h
    exact ⟨i, (decode_eq_ok_iff op i).mpr ⟨hwf, hop⟩, hrow⟩
  · rintro ⟨i, hd, rfl⟩
    rw [tableRows_rowOf, ← encode_of_decode hd]
    exact encode_matches_row i

/-! ### The verdict illegal -/

theorem decodeGroup0_error {op : Word} {e : DecodeError} (h : decodeGroup0 op = .error e) : e = .illegal op := by
  unfold decodeGroup0 at h
  split at h
  · cases h
  split at h <;> cases h
  rfl

theorem decodeXY0_error {op : Word} {e : DecodeError} {mk : Reg → Reg → Instr} (h : decodeXY0 op mk = .error e) :
    e = .illegal op := by
  unfold decodeXY0 at h
  split at h <;> cases h
  rfl

theorem decodeGroup8_error {op : Word} {e : DecodeError} (h : decodeGroup8 op = .error e) : e = .illegal op := by
  unfold decodeGroup8 at h
  split at h <;> cases h
  rfl

theorem decodeGroupE_error {op : Word} {e : DecodeError} (h : decodeGroupE op = .error e) : e = .illegal op := by
  unfold decodeGroupE at h
  split at h <;> cases h
  rfl

theorem decodeGroupF_error {op : Word} {e : DecodeError} (h : decodeGroupF op = .error e) : e = .illegal op := by
  unfold decodeGroupF at h
  split at h <;> cases h
  rfl

theorem decode_error {op : Word} {e : DecodeError} (h : decode op = .error e) : e = .illegal op := by
  unfold decode at h
  split at h
  case h_1 => exact decodeGroup0_error h
  case h_6 => exact decodeXY0_error h
  case h_9 => exact decodeGroup8_error h
  case h_10 => exact decodeXY0_error h
  case h_15 => exact decodeGroupE_error h
  case h_16 => exact decodeGroupF_error h
  case h_17 => cases h; rfl
  all_goals cases h

theorem illegal_iff_forall_ne_ok (op : Word) : decode op = .error (.illegal op) ↔ ∀ i, decode op ≠ .ok i := by
  constructor
  · intro h i hi
    cases h.symm.trans hi
  · intro h
    cases hd : decode op with
    | ok i => exact absurd hd (h i)
    | error e => rw [decode_error hd]

/-- Settles O5: each row's match names the instruction whose operands are the word's fields, and the decoder is the inverse
of the encoder; a word is illegal when it decodes to no instruction, of whatever row. -/
theorem rowMatchSelectsTheInstruction : Obligations.RowMatchSelectsTheInstruction := by
  unfold Obligations.RowMatchSelectsTheInstruction
  intro op
  refine ⟨fun k hk => match_iff_decode op hk, ?_⟩
  rw [illegal_iff_forall_ne_ok]
  constructor
  · intro h k hk hm
    obtain ⟨i, hd, -⟩ := (match_iff_decode op hk).mp hm
    exact h i hd
  · exact fun h i hd => h (rowOf i) (rowOf_lt i) ((match_iff_decode op (rowOf_lt i)).mpr ⟨i, hd, rfl⟩)

end Sys2Proof.Proofs
end

section
/-! PROOFS. The engine's step: it always answers a state, it runs the instruction at PC, and a faulted engine is idle
(40_step_cycle.md R101, R102, R105, R107). -/

namespace Sys2Proof.Proofs

open Sys2Proof.Machine Sys2Proof.Claims Sys2Proof.Laws Sys2Proof.Safety

/-! ### Nothing blocks -/

theorem exists_exec_next (i : Instr) (s : State) : ∃ t, exec i s = .next t := by
  rcases hf : faultOf s i with _ | ⟨f, a⟩
  · obtain ⟨t, ht, -⟩ := exec_of_faultOf_none hf
    exact ⟨t, ht⟩
  · exact ⟨_, exec_of_faultOf_some hf⟩

theorem exists_engineStep_next (s : State) : ∃ t, engineStep s = .next t := by
  rcases engineStep_cases s with ⟨-, he⟩ | ⟨-, -, he⟩ | ⟨-, -, -, he⟩ | ⟨-, -, i, -, he⟩
  · exact ⟨_, he⟩
  · exact ⟨_, he⟩
  · exact ⟨_, he⟩
  · rw [he]; exact exists_exec_next i s

theorem exists_step_next (s : State) : ∃ t, step s = .next t := by
  obtain ⟨u, hu⟩ := exists_engineStep_next s
  exact ⟨_, (step_next s _).mpr ⟨u, hu, rfl⟩⟩

theorem exists_runsTo (n : Nat) (s : State) : ∃ t, RunsTo n s t := by
  induction n generalizing s with
  | zero => exact ⟨s, (runsTo_zero s s).mpr rfl⟩
  | succ n ih =>
    obtain ⟨u, hu⟩ := exists_step_next s
    obtain ⟨t, ht⟩ := ih u
    exact ⟨t, (runsTo_succ n s t u hu).mpr ht⟩

/-- Settles O11: an instruction raises its fault or completes, a step is one of the four cases of R101, and a run is steps. -/
theorem everyStepAnswersAState : Obligations.EveryStepAnswersAState := by
  unfold Obligations.EveryStepAnswersAState
  exact ⟨exists_exec_next, exists_step_next, exists_runsTo⟩

/-! ### A running engine below the halt limit -/

section
variable {s : State} (hrun : s.runState = .running) (hpc : s.pc.toNat < haltLimit)
include hrun hpc

theorem engineStep_eq_executeFetched : engineStep s = s.executeFetched := by
  simp [engineStep, hrun, State.atHaltLimit, hpc]

theorem engineStep_of_decode_ok {i : Instr} (hd : decode s.fetch = .ok i) : engineStep s = exec i s := by
  rw [engineStep_eq_executeFetched hrun hpc, State.executeFetched, hd]

theorem engineStep_of_decode_error {e : DecodeError} (hd : decode s.fetch = .error e) :
    engineStep s = .next (s.raise .decodeFailure s.fetch 0) := by
  rw [engineStep_eq_executeFetched hrun hpc, State.executeFetched, hd]

end

theorem step_eq_onNext_of_engineStep_eq {s : State} {o : Host.Outcome State Fault Refusal} (h : engineStep s = o) :
    step s = onNext State.ticksBetweenSteps o := by
  rw [step, stepThenTicks, h]

/-- Settles O7: the word of the two bytes is the fetched one. -/
theorem stepRunsTheDecodedInstruction : Obligations.StepRunsTheDecodedInstruction := by
  unfold Obligations.StepRunsTheDecodedInstruction
  intro s op i hrun hpc hop hd
  have hfetch : s.fetch = op := BitVec.eq_of_toNat_eq ((fetch_toNat s).trans hop.symm)
  have hstep : engineStep s = exec i s := engineStep_of_decode_ok hrun hpc (by rw [hfetch, hd])
  exact ⟨hstep, step_eq_onNext_of_engineStep_eq hstep⟩

/-! ### A faulted engine -/

theorem engineStep_of_endedInFault {s : State} (h : EndedInFault s) : engineStep s = .next s := by
  rw [EndedInFault] at h
  rw [engineStep, h]

theorem endedInFault_of_onlyTimersRan {s t : State} (hs : EndedInFault s) (h : OnlyTimersRan s t) : EndedInFault t := by
  obtain ⟨-, -, ht⟩ := h
  rw [ht]
  exact hs

theorem isFaulted_of_endedInFault {s : State} (h : EndedInFault s) : s.isFaulted = true := decide_eq_true h

/-- The Faulted test comes first (R105): `halted` is never said of a faulted engine. -/
theorem isHalted_of_endedInFault {s : State} (h : EndedInFault s) : s.isHalted = false := by
  rw [State.isHalted, isFaulted_of_endedInFault h, Bool.not_true, Bool.and_false]

/-- Settles O10: a faulted engine is idle, the timers alone cannot change that, and reset sets it running. -/
theorem faultedEngineStaysFaulted : Obligations.FaultedEngineStaysFaulted := by
  unfold Obligations.FaultedEngineStaysFaulted
  intro s n hs
  obtain ⟨t, ht, hst⟩ := exists_runsTo_of_idle
    (fun u hu => engineStep_of_endedInFault (endedInFault_of_onlyTimersRan hs hu)) n
  exact ⟨engineStep_of_endedInFault hs, isHalted_of_endedInFault hs, isFaulted_of_endedInFault hs,
    ⟨t, ht, endedInFault_of_onlyTimersRan hs hst, hst⟩, fun fill => ⟨s.resetRequest fill, rfl, rfl⟩⟩

end Sys2Proof.Proofs
end

section
/-! PROOFS. The word that `withFetchWord` places is fetched next (20_memory.md R51, R63, notes/assumptions/8.md). -/

namespace Sys2Proof.Proofs

open Sys2Proof.Machine Sys2Proof.Claims Sys2Proof.Laws

/-- A fetch sees the word stored there. -/
theorem readWord_writeBytes_bytesOfWord {m : Memory} (hm : m.wf) {a : Nat} (ha : a < haltLimit) (op : Word) :
    (m.writeBytes a (bytesOfWord op)).readWord a = op := by
  have hfit : a + (bytesOfWord op).length ≤ memSize := Nat.add_lt_of_lt_sub ha |>.le
  rw [Memory.readWord, read_writeBytes _ m hm a hfit, read_writeBytes _ m hm a hfit]
  simp [bytesOfWord, wordOfBytes_bytesOfWord]

/-- Where `withFetchWord` places a word: at PC, or at the program start when PC is at or past the halt limit. -/
def placeAddr (s : State) : Nat := if s.atHaltLimit then progStart else s.pc.toNat

theorem placeAddr_lt_haltLimit (s : State) : placeAddr s < haltLimit := by
  unfold placeAddr
  split
  case isTrue => decide
  case isFalse h => simpa [State.atHaltLimit] using h

theorem withFetchWord_eq (s : State) (w : Nat) :
    s.withFetchWord 16 w =
      { s with mem := s.mem.writeBytes (placeAddr s) (bytesOfWord (BitVec.ofNat 16 w))
               pc := BitVec.ofNat 16 (placeAddr s), runState := .running } := by
  have hw : BitVec.ofNat 16 (w % 2 ^ 16) = BitVec.ofNat 16 w := BitVec.eq_of_toNat_eq (by simp)
  rw [State.withFetchWord, tableWordBytes, hw]
  rfl

theorem runState_withFetchWord (s : State) (w : Nat) : (s.withFetchWord 16 w).runState = .running := rfl

theorem toNat_pc_withFetchWord (s : State) (w : Nat) : (s.withFetchWord 16 w).pc.toNat = placeAddr s := by
  have ha := placeAddr_lt_haltLimit s
  have hl : haltLimit = 4094 := rfl
  rw [withFetchWord_eq, BitVec.toNat_ofNat, Nat.mod_eq_of_lt (by omega)]

theorem fetch_withFetchWord {s : State} (hm : s.mem.wf) (w : Nat) :
    (s.withFetchWord 16 w).fetch = BitVec.ofNat 16 w := by
  rw [State.fetch, toNat_pc_withFetchWord, withFetchWord_eq]
  exact readWord_writeBytes_bytesOfWord hm (placeAddr_lt_haltLimit s) _

/-- What `raise` does, in the claims' terms; the recorded address is below 2 to the 17. -/
theorem raised_raise (s : State) (f : FaultCode) (op : Word) {addr : Nat} (h : addr < 131072) :
    Raised s (s.raise f op addr) f op addr :=
  ⟨rfl, rfl, rfl, rfl, Nat.mod_eq_of_lt h, fun _ => rfl, rfl⟩

/-- Settles O57: the placed word is fetched by a running engine below the halt limit. -/
theorem storedWordIsRunNext : Obligations.StoredWordIsRunNext := by
  unfold Obligations.StoredWordIsRunNext
  intro s w hm
  have hfetch := fetch_withFetchWord hm w
  have hrun := runState_withFetchWord s w
  have hpc : (s.withFetchWord 16 w).pc.toNat < haltLimit := by
    rw [toNat_pc_withFetchWord]; exact placeAddr_lt_haltLimit s
  refine ⟨fun i hd => ?legal, fun e hd => ⟨_, ?illegal, raised_raise _ _ _ (by decide)⟩⟩
  case legal => exact engineStep_of_decode_ok hrun hpc (by rw [hfetch, hd])
  case illegal => rw [engineStep_of_decode_error hrun hpc (by rw [hfetch, hd]), hfetch]

end Sys2Proof.Proofs
end

section
/-! PROOFS. Executions as sequences of atomic actions: a machine step is one of them, and every booted one keeps the invariant
(40_step_cycle.md R100, 60_exceptions.md R197, 70_reset_and_hazards.md R210 to R212). -/

namespace Sys2Proof.Proofs

open Sys2Proof.Machine Sys2Proof.Claims Sys2Proof.Laws Sys2Proof.Safety

/-! ### One action of an execution -/

theorem runActions_cons {mayLoad : Bool} {a : Action} {s t : State} (hmay : hostMay mayLoad a = true)
    (hact : act a s = .next t) (rest : List Action) :
    runActions mayLoad (a :: rest) s = runActions (mayLoadAfter mayLoad a) rest t := by
  rw [runActions, if_pos hmay, hact]

theorem runActions_cons_of_not_hostMay {mayLoad : Bool} {a : Action} (hmay : hostMay mayLoad a = false)
    (rest : List Action) (s : State) : runActions mayLoad (a :: rest) s = .refused .hostDutyBroken := by
  simp [runActions, hmay]

theorem hostKeepsOrder_cons (mayLoad : Bool) (a : Action) (rest : List Action) :
    hostKeepsOrder mayLoad (a :: rest) = (hostMay mayLoad a && hostKeepsOrder (mayLoadAfter mayLoad a) rest) := by
  cases a <;> rfl

theorem exists_act_next (a : Action) (s : State) : ∃ t, act a s = .next t := by
  cases a with
  | engine => exact exists_engineStep_next s
  | delayTick | soundTick | reset | load => exact ⟨_, rfl⟩

/-! ### A machine step as an execution -/

theorem tickTimes_zero (t : Byte) : tickTimes 0 t = t := BitVec.eq_of_toNat_eq (by rw [tickTimes_toNat, Nat.sub_zero])

theorem tickTimes_succ (n : Nat) (t : Byte) : tickTimes (n + 1) t = tickTimes n (tickTimer t) :=
  BitVec.eq_of_toNat_eq (by rw [tickTimes_toNat, tickTimes_toNat, tickTimer_toNat]; omega)

/-- Delay ticks in a row are so many ticks of DT at once. -/
theorem runActions_delayTicks (mayLoad : Bool) (n : Nat) (rest : List Action) (s : State) :
    runActions mayLoad (List.replicate n .delayTick ++ rest) s =
      runActions mayLoad rest { s with dt := tickTimes n s.dt } := by
  induction n generalizing s with
  | zero => rw [tickTimes_zero]; rfl
  | succ n ih =>
    rw [tickTimes_succ]
    exact (runActions_cons rfl rfl _).trans (ih s.tickDelay)

/-- Sound ticks in a row are so many ticks of ST at once. -/
theorem runActions_soundTicks (mayLoad : Bool) (n : Nat) (rest : List Action) (s : State) :
    runActions mayLoad (List.replicate n .soundTick ++ rest) s =
      runActions mayLoad rest { s with st := tickTimes n s.st } := by
  induction n generalizing s with
  | zero => rw [tickTimes_zero]; rfl
  | succ n ih =>
    rw [tickTimes_succ]
    exact (runActions_cons rfl rfl _).trans (ih s.tickSound)

theorem completes_tickFeeds {i : Instr} {s t : State} (h : Completes i s t) :
    t.delayFeed = s.delayFeed ∧ t.soundFeed = s.soundFeed := by
  cases h <;> exact ⟨rfl, rfl⟩

theorem tickFeeds_of_exec {i : Instr} {s t : State} (h : exec i s = .next t) :
    t.delayFeed = s.delayFeed ∧ t.soundFeed = s.soundFeed := by
  rcases exec_cases h with ⟨f, a, -, rfl⟩ | ⟨-, hc⟩
  · exact ⟨rfl, rfl⟩
  · exact completes_tickFeeds hc

/-- The engine takes no tick count. -/
theorem tickFeeds_of_engineStep {s t : State} (h : engineStep s = .next t) :
    t.delayFeed = s.delayFeed ∧ t.soundFeed = s.soundFeed := by
  rcases engineStep_cases s with ⟨-, he⟩ | ⟨-, -, he⟩ | ⟨-, -, -, he⟩ | ⟨-, -, i, -, he⟩
  · cases he.symm.trans h; exact ⟨rfl, rfl⟩
  · cases he.symm.trans h; exact ⟨rfl, rfl⟩
  · cases he.symm.trans h; exact ⟨rfl, rfl⟩
  · exact tickFeeds_of_exec (he.symm.trans h)

/-- Settles O12: the ticks due after the engine's step are those due before it, and ticks in a row count down as at once. -/
theorem stepIsTheEngineThenTicks : Obligations.StepIsTheEngineThenTicks := by
  unfold Obligations.StepIsTheEngineThenTicks
  intro s t h
  obtain ⟨u, hu, rfl⟩ := (step_next s t).mp h
  obtain ⟨hd, hs⟩ := tickFeeds_of_engineStep hu
  refine ⟨{ u with dt := tickTimes s.delayTicksDue u.dt, st := tickTimes s.soundTicksDue u.st }, ?_, ?_⟩
  · rw [runActions_cons (a := .engine) rfl hu, runActions_delayTicks, ← List.append_nil (List.replicate s.soundTicksDue _),
      runActions_soundTicks]
    rfl
  · simp only [State.ticksBetweenSteps, State.delayTicksDue, State.soundTicksDue, hd, hs]

/-! ### The invariant along a booted execution -/

theorem inv_resetRequest (s : State) (fill : List Byte) : Inv (s.resetRequest fill) where
  memCanonical := wf_memAfterReset fill
  pcBound := resetStateMeetsTheInvariant.pcBound
  stackBound := resetStateMeetsTheInvariant.stackBound
  runningClear := resetStateMeetsTheInvariant.runningClear
  faultedRecord h := by cases h

theorem inv_tickDelay {s : State} (hs : Inv s) : Inv s.tickDelay :=
  ⟨hs.memCanonical, hs.pcBound, hs.stackBound, hs.runningClear, hs.faultedRecord⟩

theorem inv_tickSound {s : State} (hs : Inv s) : Inv s.tickSound :=
  ⟨hs.memCanonical, hs.pcBound, hs.stackBound, hs.runningClear, hs.faultedRecord⟩

/-- A load changes memory only. -/
theorem load_snd_eq (s : State) (stream : List Byte) :
    (s.load stream).2 = { s with mem := (s.load stream).2.mem } := by
  rcases load_cases s stream with ⟨-, he⟩ | ⟨-, he⟩ <;> rw [he]

/-- Under a running engine no word is recorded as faulted, so a load may change what PC fetches. -/
theorem inv_load {s : State} (hs : Inv s) (hrun : s.runState = .running) (stream : List Byte) :
    Inv (s.load stream).2 := by
  have hwf := wf_load s stream hs.memCanonical
  rw [load_snd_eq]
  exact ⟨hwf, hs.pcBound, hs.stackBound, hs.runningClear, fun h => by cases hrun.symm.trans h⟩

/-- The invariant of a booted execution: where a load may still come, no step has run, so the engine has not faulted. -/
def BootInv (mayLoad : Bool) (s : State) : Prop := Inv s ∧ (mayLoad = true → s.runState = .running)

theorem bootInv_act {mayLoad : Bool} {a : Action} {s t : State} (hs : BootInv mayLoad s)
    (hmay : hostMay mayLoad a = true) (h : act a s = .next t) : BootInv (mayLoadAfter mayLoad a) t := by
  obtain ⟨hinv, hrun⟩ := hs
  cases a with
  | engine => exact ⟨inv_engineStep hinv h, fun hm => by cases hm⟩
  | delayTick => cases h; exact ⟨inv_tickDelay hinv, hrun⟩
  | soundTick => cases h; exact ⟨inv_tickSound hinv, hrun⟩
  | reset fill => cases h; exact ⟨inv_resetRequest s fill, fun _ => rfl⟩
  | load stream => cases h; exact ⟨inv_load hinv (hrun hmay) stream, fun hm => by cases hm⟩

theorem runActions_of_hostKeepsOrder {mayLoad : Bool} {actions : List Action} {s : State} (hs : BootInv mayLoad s)
    (h : hostKeepsOrder mayLoad actions = true) : ∃ t, runActions mayLoad actions s = .next t ∧ Inv t := by
  induction actions generalizing mayLoad s with
  | nil =>
    obtain ⟨hinv, -⟩ := hs
    exact ⟨s, rfl, hinv⟩
  | cons a rest ih =>
    rw [hostKeepsOrder_cons, Bool.and_eq_true] at h
    obtain ⟨hmay, hrest⟩ := h
    obtain ⟨t, ht⟩ := exists_act_next a s
    rw [runActions_cons hmay ht]
    exact ih (bootInv_act hs hmay ht) hrest

theorem runActions_of_not_hostKeepsOrder {mayLoad : Bool} {actions : List Action}
    (h : hostKeepsOrder mayLoad actions = false) (s : State) :
    runActions mayLoad actions s = .refused .hostDutyBroken := by
  induction actions generalizing mayLoad s with
  | nil => cases h
  | cons a rest ih =>
    rw [hostKeepsOrder_cons] at h
    by_cases hmay : hostMay mayLoad a = true
    · obtain ⟨t, ht⟩ := exists_act_next a s
      rw [hmay, Bool.true_and] at h
      rw [runActions_cons hmay ht, ih h]
    · exact runActions_cons_of_not_hostMay (Bool.eq_false_of_not_eq_true hmay) rest s

/-- Settles O60: reset establishes `BootInv`, every action the host may issue keeps it, and a forbidden load is refused. -/
theorem everyBootedExecutionKeepsTheInvariant : Obligations.EveryBootedExecutionKeepsTheInvariant := by
  unfold Obligations.EveryBootedExecutionKeepsTheInvariant
  intro s fill actions
  have hboot : BootInv true (s.resetRequest fill) := ⟨inv_resetRequest s fill, fun _ => rfl⟩
  rw [runActions_cons (a := .reset fill) rfl rfl]
  exact ⟨fun h => runActions_of_hostKeepsOrder hboot h, fun h => runActions_of_not_hostKeepsOrder h _⟩

end Sys2Proof.Proofs
end

section
/-! PROOFS. The free inputs matter only to the instructions that take them (40_step_cycle.md R102). -/

namespace Sys2Proof.Proofs

open Sys2Proof.Machine Sys2Proof.Claims Sys2Proof.Laws

/-! ### A state with other inputs -/

/-- The same machine, each of the four feeds replaced by a function of itself. -/
def mapInputs (fk : Feed (Option KeyCode) → Feed (Option KeyCode)) (fr : Feed Byte → Feed Byte)
    (fd fs : Feed Nat → Feed Nat) (s : State) : State :=
  { s with keyFeed := fk s.keyFeed, rndFeed := fr s.rndFeed, delayFeed := fd s.delayFeed, soundFeed := fs s.soundFeed }

section
variable (fk : Feed (Option KeyCode) → Feed (Option KeyCode)) (fr : Feed Byte → Feed Byte)
  (fd fs : Feed Nat → Feed Nat) (s : State)

theorem mapInputs_key : (mapInputs fk fr fd fs s).key = s.key := rfl

theorem mapInputs_sp : (mapInputs fk fr fd fs s).sp = s.sp := rfl

theorem ifInRange_mapInputs {t u : State} (hu : u = mapInputs fk fr fd fs t) (a n : Nat) (op : Word) :
    (mapInputs fk fr fd fs s).ifInRange a n op u = mapInputs fk fr fd fs (s.ifInRange a n op t) := by
  unfold State.ifInRange
  cases firstOutOfRange a n with
  | none => exact hu
  | some bad => rfl

theorem storeAtIndex_mapInputs (op : Word) (bytes : List Byte) :
    (mapInputs fk fr fd fs s).storeAtIndex op bytes = mapInputs fk fr fd fs (s.storeAtIndex op bytes) := by
  refine ifInRange_mapInputs fk fr fd fs s ?_ _ _ op
  rfl

theorem pushStack_mapInputs (w : Word) :
    (mapInputs fk fr fd fs s).pushStack w = mapInputs fk fr fd fs (s.pushStack w) := by
  by_cases h : s.sp.val < 16
  · rw [pushStack_of_lt s w h, pushStack_of_lt (mapInputs fk fr fd fs s) w h]
    rfl
  · rw [pushStack_of_not_lt s w h, pushStack_of_not_lt (mapInputs fk fr fd fs s) w h]

theorem takeKeyOrWait_mapInputs (x : Reg) :
    (mapInputs fk fr fd fs s).takeKeyOrWait x = mapInputs fk fr fd fs (s.takeKeyOrWait x) := by
  unfold State.takeKeyOrWait
  rw [mapInputs_key]
  cases s.key with
  | none => rfl
  | some k => rfl

/-- A key skip polls the key port, so that feed stays as it is. -/
theorem keySkip_mapInputs (x : Reg) (skipOn : Bool) :
    (mapInputs id fr fd fs s).keySkip x skipOn = mapInputs id fr fd fs (s.keySkip x skipOn) := by
  have hmatch : (mapInputs id fr fd fs s).refresh.keyMatches x = s.refresh.keyMatches x := rfl
  simp only [State.keySkip, hmatch]
  split
  · rfl
  · rfl

/-! ### An instruction under other inputs -/

/-- An instruction commutes with a change of the inputs it does not take. -/
theorem exec_mapInputs {i : Instr} (hk : KeyInstr i → fk = id) (hr : (∃ x kk, i = .rndVxKk x kk) → fr = id) :
    exec i (mapInputs fk fr fd fs s) = onNext (mapInputs fk fr fd fs) (exec i s) := by
  cases i with
  | cls | jp | jpV0Nnn | seVxKk | sneVxKk | seVxVy | sneVxVy => rfl
  | ldVxKk | addVxKk | ldVxVy | orVxVy | andVxVy | xorVxVy | ldVxDt => rfl
  | addVxVy | subVxVy | shrVx | subnVxVy | shlVx => rfl
  | ldINnn | addIVx | ldFVx | ldDtVx | ldStVx => rfl
  | ret =>
    refine congrArg Host.Outcome.next ?_
    rw [mapInputs_sp]
    split
    · rfl
    · rfl
  | call nnn =>
    refine congrArg Host.Outcome.next ?_
    rw [mapInputs_sp, pushStack_mapInputs]
    split
    · rfl
    · rfl
  | rndVxKk x kk => cases hr ⟨x, kk, rfl⟩; rfl
  | drwVxVyN | ldVxMem =>
    refine congrArg Host.Outcome.next (ifInRange_mapInputs fk fr fd fs s ?_ _ _ _)
    rfl
  | ldBVx | ldMemVx => exact congrArg Host.Outcome.next (storeAtIndex_mapInputs fk fr fd fs s _ _)
  | skpVx x =>
    cases hk ⟨x, .inl rfl⟩
    exact congrArg Host.Outcome.next (keySkip_mapInputs fr fd fs s x true)
  | sknpVx x =>
    cases hk ⟨x, .inr (.inl rfl)⟩
    exact congrArg Host.Outcome.next (keySkip_mapInputs fr fd fs s x false)
  | ldVxK x =>
    cases hk ⟨x, .inr (.inr rfl)⟩
    exact congrArg Host.Outcome.next (takeKeyOrWait_mapInputs id fr fd fs s.refresh x)

end

/-- Settles O53: each clause replaces the feeds it names and leaves the others. -/
theorem inputsMatterOnlyToTheirInstructions : Obligations.InputsMatterOnlyToTheirInstructions := by
  unfold Obligations.InputsMatterOnlyToTheirInstructions
  intro i s kf rf df sf
  refine ⟨fun hk => ?key, fun hr => ?random, ?ticks⟩
  case key => exact exec_mapInputs (fun _ => kf) id id id s (fun h => absurd h hk) (fun _ => rfl)
  case random => exact exec_mapInputs id (fun _ => rf) id id s (fun _ => rfl) (fun h => absurd h hr)
  case ticks => exact exec_mapInputs id id (fun _ => df) (fun _ => sf) s (fun _ => rfl) (fun _ => rfl)

end Sys2Proof.Proofs
end

section
/-! PROOFS. Calls, returns, jumps and skips (41_control_flow.md R111 to R119). -/

namespace Sys2Proof.Proofs

open Sys2Proof.Machine Sys2Proof.Claims Sys2Proof.Laws

/-! ### What the stack operations do (10_state.md R27, R28) -/

section
variable (s : State) (w : Word) (h : s.sp.val < 16)
include h

theorem stack_pushStack_top : (s.pushStack w).stack[s.sp.val] = w := by
  simp [pushStack_of_lt s w h]

theorem stack_pushStack_ne {j : Fin 16} (hj : j.val ≠ s.sp.val) : (s.pushStack w).stack[j] = s.stack[j] := by
  simp [pushStack_of_lt s w h, Vector.getElem_set_ne _ _ hj.symm]

/-- The popped entry stays where it was pushed (R119). -/
theorem popStack_pushStack : (s.pushStack w).popStack = { s with stack := (s.pushStack w).stack } := by
  rw [pushStack_of_lt s w h]
  rfl

end

/-! ### CALL and RET (41_control_flow.md R111, R112) -/

theorem exec_ret_of_sp_pos {s : State} (h : 0 < s.sp.val) :
    exec .ret s = .next (s.popStack.finish (.jump s.stackTop.toNat)) :=
  congrArg Host.Outcome.next (if_neg h.ne')

theorem exec_call_of_sp_lt (nnn : Addr12) {s : State} (h : s.sp.val < 16) :
    exec (.call nnn) s = .next ((s.pushStack s.returnAddr).finish (.jump (zextAddr nnn).toNat)) :=
  congrArg Host.Outcome.next (if_neg h.ne)

/-- Settles O14: by whether the stack is empty; an empty one is RET's fault condition. -/
theorem retPopsOrUnderflows : Obligations.RetPopsOrUnderflows := by
  unfold Obligations.RetPopsOrUnderflows
  refine ⟨rfl, fun s => ⟨fun hpos => ?pops, fun hempty => ?underflows⟩⟩
  case pops => exact ⟨_, exec_ret_of_sp_pos hpos, newPc_jump_toNat s.pc s.stackTop, rfl, fun _ => rfl, rfl⟩
  case underflows =>
    have hf : faultOf s .ret = some (.stackUnderflow, 0) := if_pos hempty
    exact ⟨_, exec_of_faultOf_some hf, rfl, raised_raise s _ _ (by decide)⟩

/-- Settles O15: by whether the stack is full; a full one is CALL's fault condition. -/
theorem callPushesOrOverflows : Obligations.CallPushesOrOverflows := by
  unfold Obligations.CallPushesOrOverflows
  intro nnn s
  refine ⟨rfl, fun hlt => ⟨_, exec_call_of_sp_lt nnn hlt, ?entry, fun j hj => ?others, ?sp, ?pc, fun _ => ?mem,
    ?frame⟩, fun hfull => ?overflows⟩
  case entry => exact (congrArg BitVec.toNat (stack_pushStack_top s _ hlt)).trans (toNat_newPc_next s.pc)
  case others => exact stack_pushStack_ne s _ hlt hj
  case sp => exact val_sp_pushStack s _ hlt
  case pc => rw [finish_pc, newPc_jump_toNat, toNat_zextAddr]
  case mem => rw [finish_mem, pushStack_mem]
  case frame => rw [pushStack_of_lt s _ hlt]; rfl
  case overflows =>
    have hf : faultOf s (.call nnn) = some (.stackOverflow, 0) := if_pos hfull
    exact ⟨_, exec_of_faultOf_some hf, rfl, raised_raise s _ _ (by decide)⟩

/-- RET does not read PC: where the step before it jumped to has no influence. -/
theorem exec_ret_finish {s : State} (h : 0 < s.sp.val) (c : Control) :
    exec .ret (s.finish c) = .next (s.popStack.finish (.jump s.stackTop.toNat)) :=
  exec_ret_of_sp_pos (s := s.finish c) h

theorem exec_ret_finish_pushStack {s : State} (h : s.sp.val < 16) (w : Word) (c : Control) :
    exec .ret ((s.pushStack w).finish c) = .next { s with stack := (s.pushStack w).stack, pc := w } := by
  have hpos : 0 < (s.pushStack w).sp.val := by rw [val_sp_pushStack s w h]; exact Nat.succ_pos _
  rw [exec_ret_finish hpos, stackTop_pushStack s w h, popStack_pushStack s w h, State.finish, newPc_jump_toNat]

/-- Settles O16: RET after CALL pops the address CALL pushed, and of the stack only the pushed entry differs. -/
theorem callThenRetComesBack : Obligations.CallThenRetComesBack := by
  unfold Obligations.CallThenRetComesBack
  intro nnn s h
  exact ⟨_, _, exec_call_of_sp_lt nnn h, exec_ret_finish_pushStack h _ _, toNat_newPc_next s.pc,
    fun _ hj => stack_pushStack_ne s _ h hj, fun _ => rfl, rfl⟩

/-! ### Jumps (41_control_flow.md R113, R114) -/

/-- The end of a step moves PC and nothing else (40_step_cycle.md R103). -/
theorem onlyPc_finish (s : State) (c : Control) : OnlyPc s (s.finish c) (c.newPc s.pc).toNat :=
  ⟨rfl, fun _ => rfl, rfl⟩

theorem onlyPc_finish_jump (s : State) (w : Word) : OnlyPc s (s.finish (.jump w.toNat)) w.toNat := by
  simpa only [newPc_jump_toNat] using onlyPc_finish s (.jump w.toNat)

/-- Settles O17: the target is the zero-extended address. -/
theorem jumpGoesToItsAddress : Obligations.JumpGoesToItsAddress := by
  unfold Obligations.JumpGoesToItsAddress
  intro nnn s
  refine ⟨rfl, _, rfl, ?_⟩
  rw [← toNat_zextAddr]
  exact onlyPc_finish_jump s _

/-- Settles O18: a 12-bit address and a byte add up without a wrap at 16 bits. -/
theorem indexedJumpAddsV0 : Obligations.IndexedJumpAddsV0 := by
  unfold Obligations.IndexedJumpAddsV0
  intro nnn s
  refine ⟨rfl, _, rfl, ?_⟩
  rw [← toNat_indexedTarget]
  exact onlyPc_finish_jump s _

/-! ### Skips (41_control_flow.md R115 to R118) -/

theorem onlyPc_finish_skipIf (s : State) (b : Bool) :
    OnlyPc s (s.finish (skipIf b)) (if b then (s.pc.toNat + 4) % 65536 else (s.pc.toNat + 2) % 65536) := by
  cases b with
  | true => rw [if_pos rfl, ← toNat_newPc_skip]; exact onlyPc_finish s .skip
  | false => rw [if_neg Bool.false_ne_true, ← toNat_newPc_next]; exact onlyPc_finish s .next

/-- Skip if equal. -/
theorem onlyPc_finish_skipIf_beq (s : State) (a b : Byte) : OnlyPc s (s.finish (skipIf (a == b)))
    (if a = b then (s.pc.toNat + 4) % 65536 else (s.pc.toNat + 2) % 65536) := by
  simpa only [beq_iff_eq] using onlyPc_finish_skipIf s (a == b)

/-- Skip if not equal. -/
theorem onlyPc_finish_skipIf_bne (s : State) (a b : Byte) : OnlyPc s (s.finish (skipIf (a != b)))
    (if a = b then (s.pc.toNat + 2) % 65536 else (s.pc.toNat + 4) % 65536) := by
  simpa only [bne_iff_ne, ite_not] using onlyPc_finish_skipIf s (a != b)

/-- Settles O19: both compare `Vx` with `kk`. -/
theorem skipsOnAnImmediate : Obligations.SkipsOnAnImmediate := by
  unfold Obligations.SkipsOnAnImmediate
  exact fun x kk s => ⟨rfl, rfl, ⟨_, rfl, onlyPc_finish_skipIf_beq s (s.getV x) kk⟩,
    _, rfl, onlyPc_finish_skipIf_bne s (s.getV x) kk⟩

/-- Settles O20: both compare `Vx` with `Vy`. -/
theorem skipsOnTwoRegisters : Obligations.SkipsOnTwoRegisters := by
  unfold Obligations.SkipsOnTwoRegisters
  exact fun x y s => ⟨rfl, rfl, ⟨_, rfl, onlyPc_finish_skipIf_beq s (s.getV x) (s.getV y)⟩,
    _, rfl, onlyPc_finish_skipIf_bne s (s.getV x) (s.getV y)⟩

end Sys2Proof.Proofs
end

section
/-! PROOFS. The register and ALU instructions (42_alu.md R130 to R146). -/

namespace Sys2Proof.Proofs

open Sys2Proof.Machine Sys2Proof.Claims Sys2Proof.Laws

/-! ### An instruction that writes one register (42_alu.md R130 to R135) -/

section
variable (s : State) (x : Reg) (b : Byte)

theorem onlyRegister_setV_finish : OnlyRegister s ((s.setV x b).finish .next) x b :=
  ⟨getV_setV_self s x b, fun _ hr => getV_setV_ne s b hr, toNat_newPc_next s.pc, fun _ => rfl, rfl⟩

/-- The written value, described bit by bit. -/
theorem onlyRegister_setV_finish_bits {bit : Nat → Bool} (hbits : ∀ k, k < 8 → b.getLsbD k = bit k) :
    OnlyRegister s ((s.setV x b).finish .next) x (((s.setV x b).finish .next).getV x) ∧
      ∀ k, k < 8 → (((s.setV x b).finish .next).getV x).getLsbD k = bit k := by
  rw [getV_finish, getV_setV_self]
  exact ⟨onlyRegister_setV_finish s x b, hbits⟩

end

/-- Settles O21: the immediate is what the one written register holds. -/
theorem loadImmediateWritesVx : Obligations.LoadImmediateWritesVx := by
  unfold Obligations.LoadImmediateWritesVx
  exact fun x kk s => ⟨rfl, _, rfl, onlyRegister_setV_finish s x kk⟩

theorem addWrap_eq_ofNat_mod (a b : Byte) : addWrap a b = BitVec.ofNat 8 ((a.toNat + b.toNat) % 256) :=
  BitVec.eq_of_toNat_eq (by simp [addWrap])

/-- Settles O22: the flagless sum is reduced modulo 256. -/
theorem addImmediateWrapsWithoutFlag : Obligations.AddImmediateWrapsWithoutFlag := by
  unfold Obligations.AddImmediateWrapsWithoutFlag
  intro x kk s
  rw [← addWrap_eq_ofNat_mod]
  exact ⟨rfl, _, rfl, onlyRegister_setV_finish s x _⟩

/-- Settles O23: each of the four writes one register; bit `k` of a logic result comes from bit `k` of the operands. -/
theorem copyAndLogicLeaveTheFlag : Obligations.CopyAndLogicLeaveTheFlag := by
  unfold Obligations.CopyAndLogicLeaveTheFlag
  refine fun x y s => ⟨rfl, rfl, rfl, rfl, ⟨_, rfl, ?copy⟩, ⟨_, rfl, ?or⟩, ⟨_, rfl, ?and⟩, ⟨_, rfl, ?xor⟩⟩
  case copy => exact onlyRegister_setV_finish s x _
  case or => exact onlyRegister_setV_finish_bits s x _ fun _ _ => BitVec.getLsbD_or
  case and => exact onlyRegister_setV_finish_bits s x _ fun _ _ => BitVec.getLsbD_and
  case xor => exact onlyRegister_setV_finish_bits s x _ fun _ _ => BitVec.getLsbD_xor

/-! ### Results and flags as numbers (42_alu.md R136 to R142) -/

theorem toNat_flagByte (b : Bool) : (flagByte b).toNat = b.toNat := by cases b <;> rfl

theorem toNat_flagByte_decide (p : Prop) [Decidable p] : (flagByte (decide p)).toNat = if p then 1 else 0 := by
  rw [toNat_flagByte]
  by_cases h : p <;> simp [h]

theorem toNat_flagByte_getLsbD (a : Byte) (k : Nat) : (flagByte (a.getLsbD k)).toNat = a.toNat / 2 ^ k % 2 := by
  rw [toNat_flagByte, BitVec.getLsbD, Nat.toNat_testBit]

/-- The wrapped difference: 256 is added exactly when the subtraction borrows. -/
theorem toNat_subWithNotBorrow_result (a b : Byte) :
    (subWithNotBorrow a b).result.toNat =
      if a.toNat ≥ b.toNat then a.toNat - b.toNat else a.toNat + 256 - b.toNat := by
  have ha := a.isLt
  have hb := b.isLt
  have hmod : (subWithNotBorrow a b).result.toNat = (a.toNat + 256 - b.toNat) % 256 := BitVec.toNat_ofNat _ _
  split <;> omega

theorem toNat_shiftRightOut_result (a : Byte) : (shiftRightOut a).result.toNat = a.toNat / 2 := by
  have ha := a.isLt
  exact (BitVec.toNat_ofNat _ _).trans (Nat.mod_eq_of_lt (by omega))

theorem toNat_shiftRightOut_flag (a : Byte) : (shiftRightOut a).flag.toNat = a.toNat % 2 := by
  have hbit : (shiftRightOut a).flag.toNat = a.toNat / 2 ^ 0 % 2 := toNat_flagByte_getLsbD a 0
  omega

/-- Above bit 7 a byte has no bits, so the bit shifted out is the whole quotient by 128. -/
theorem toNat_shiftLeftOut_flag (a : Byte) : (shiftLeftOut a).flag.toNat = a.toNat / 128 := by
  have ha := a.isLt
  have hbit : (shiftLeftOut a).flag.toNat = a.toNat / 2 ^ 7 % 2 := toNat_flagByte_getLsbD a 7
  omega

/-! ### An instruction that writes a register and the flag (42_alu.md R136 to R141) -/

/-- The flag is written last, so the result is `Vx`'s only for `x` other than F (R141). -/
theorem onlyRegisterAndFlag_writeResultThenFlag_finish (s : State) (x : Reg) {r : AluResult} {result flag : Nat}
    (hresult : r.result.toNat = result) (hflag : r.flag.toNat = flag) :
    OnlyRegisterAndFlag s ((s.writeResultThenFlag x r).finish .next) x result flag := by
  refine ⟨?flag, fun (hx : x ≠ vf) => ?result, fun q hqx (hq : q ≠ vf) => ?others,
    toNat_newPc_next s.pc, fun _ => rfl, rfl⟩
  case flag => exact (congrArg BitVec.toNat (getV_vf_writeResultThenFlag s x r)).trans hflag
  case result => rw [getV_finish, getV_writeResultThenFlag, if_neg hx, if_pos rfl, hresult]
  case others => rw [getV_finish, getV_writeResultThenFlag, if_neg hq, if_neg hqx]

/-- Settles O24: the carry is the comparison of the unreduced sum with 255. -/
theorem addSetsCarryOut : Obligations.AddSetsCarryOut := by
  unfold Obligations.AddSetsCarryOut
  exact fun x y s => ⟨rfl, _, rfl, onlyRegisterAndFlag_writeResultThenFlag_finish s x (BitVec.toNat_ofNat _ _)
    (toNat_flagByte_decide _)⟩

/-- Settles O25: minuend `Vx`, subtrahend `Vy`. -/
theorem subtractSetsNotBorrow : Obligations.SubtractSetsNotBorrow := by
  unfold Obligations.SubtractSetsNotBorrow
  exact fun x y s => ⟨rfl, _, rfl, onlyRegisterAndFlag_writeResultThenFlag_finish s x
    (toNat_subWithNotBorrow_result _ _) (toNat_flagByte_decide _)⟩

/-- Settles O26: quotient and remainder of `Vx` by 2. -/
theorem shiftRightReportsTheLowBit : Obligations.ShiftRightReportsTheLowBit := by
  unfold Obligations.ShiftRightReportsTheLowBit
  exact fun x y s => ⟨rfl, _, rfl, onlyRegisterAndFlag_writeResultThenFlag_finish s x
    (toNat_shiftRightOut_result _) (toNat_shiftRightOut_flag _)⟩

/-- Settles O27: SUB's difference with the operands exchanged. -/
theorem reverseSubtractSetsNotBorrow : Obligations.ReverseSubtractSetsNotBorrow := by
  unfold Obligations.ReverseSubtractSetsNotBorrow
  exact fun x y s => ⟨rfl, _, rfl, onlyRegisterAndFlag_writeResultThenFlag_finish s x
    (toNat_subWithNotBorrow_result _ _) (toNat_flagByte_decide _)⟩

/-- Settles O28: remainder by 256 and carry of the doubled `Vx`. -/
theorem shiftLeftReportsTheHighBit : Obligations.ShiftLeftReportsTheHighBit := by
  unfold Obligations.ShiftLeftReportsTheHighBit
  exact fun x y s => ⟨rfl, _, rfl, onlyRegisterAndFlag_writeResultThenFlag_finish s x (BitVec.toNat_ofNat _ _)
    (toNat_shiftLeftOut_flag _)⟩

/-! ### The random byte (42_alu.md R146) -/

/-- Settles O29: once the byte is taken, the instruction writes one register. -/
theorem randomByteIsMasked : Obligations.RandomByteIsMasked := by
  unfold Obligations.RandomByteIsMasked
  intro x kk s
  obtain ⟨hx, hothers, hpc, hmem, -⟩ := onlyRegister_setV_finish s.takeRnd x (s.rndIn &&& kk)
  refine ⟨rfl, _, rfl, fun k _ => ?bits, hothers, hpc, hmem, rfl, rfl⟩
  case bits => rw [hx, BitVec.getLsbD_and]

end Sys2Proof.Proofs
end

section
/-! PROOFS. The index register, stores and loads at `I` (43_index_memory.md R150 to R155). -/

namespace Sys2Proof.Proofs

open Sys2Proof.Machine Sys2Proof.Claims Sys2Proof.Laws

/-! ### An instruction that writes I (43_index_memory.md R150 to R152) -/

/-- What the three instructions that write I have in common: class next, and only I and PC change. -/
theorem setIndex_finish (s : State) (w : Word) :
    PcNext s (State.finish { s with i := w } .next) ∧ SameMemory s (State.finish { s with i := w } .next) ∧
      State.finish { s with i := w } .next = { s with i := w, pc := Control.newPc s.pc .next } :=
  ⟨toNat_newPc_next s.pc, fun _ => rfl, rfl⟩

/-- Settles O30: the address is zero-extended. -/
theorem loadIndexImmediate : Obligations.LoadIndexImmediate := by
  unfold Obligations.LoadIndexImmediate
  exact fun nnn s => ⟨rfl, _, rfl, toNat_zextAddr nnn, setIndex_finish s _⟩

/-- Settles O31: the sum is reduced to the 16 bits of I. -/
theorem addIndexWrapsAtSixteenBits : Obligations.AddIndexWrapsAtSixteenBits := by
  unfold Obligations.AddIndexWrapsAtSixteenBits
  exact fun x s => ⟨rfl, _, rfl, BitVec.toNat_ofNat _ _, setIndex_finish s _⟩

/-- The font begins at address 0, so a glyph's address is its offset. -/
theorem toNat_glyphAddr (b : Byte) : (glyphAddr b).toNat = 5 * (b.toNat % 16) := by
  have haddr : (glyphAddr b).toNat = (0 + 5 * (b.toNat % 16)) % 65536 := BitVec.toNat_ofNat _ _
  omega

/-- Settles O32: the address is computed from `Vx` alone. -/
theorem fontAddressIsFiveTimesTheNibble : Obligations.FontAddressIsFiveTimesTheNibble := by
  unfold Obligations.FontAddressIsFiveTimesTheNibble
  exact fun x s => ⟨rfl, _, rfl, toNat_glyphAddr (s.getV x), setIndex_finish s _⟩

/-! ### The range `I .. I + k` (20_memory.md R54) -/

section
variable {s : State} {k : Nat}

theorem rangeFault_of_lt (h : s.i.toNat + k < 4096) : rangeFault s (k + 1) = none :=
  if_neg (by omega)

theorem rangeFault_of_le (h : 4096 ≤ s.i.toNat + k) :
    rangeFault s (k + 1) = some (.memRange, max s.i.toNat 4096) :=
  if_pos (by omega)

/-- An access to `I .. I + k` that leaves memory raises MemRange, and the instruction does nothing else. -/
theorem exec_raises_memRange {i : Instr} (hi : faultOf s i = rangeFault s (k + 1)) (h : 4096 ≤ s.i.toNat + k) :
    ∃ t, exec i s = .next t ∧ t.faultCode.bits = 4 ∧ Raised s t .memRange (encode i) (max s.i.toNat 4096) := by
  have haddr : max s.i.toNat 4096 < 131072 := by
    have := s.i.isLt
    omega
  exact ⟨_, exec_of_faultOf_some (hi.trans (rangeFault_of_le h)), rfl, raised_raise s _ _ haddr⟩

end

/-! ### Stores at I (43_index_memory.md R153, R154) -/

section
variable {s : State} {k : Nat} {bytes : List Byte} (hlen : bytes.length = k + 1) (h : s.i.toNat + k < 4096) (op : Word)
include hlen h

theorem storeAtIndex_of_lt : s.storeAtIndex op bytes =
    State.finish { s with mem := s.mem.writeBytes (s.dataAddr 0) bytes } .next :=
  ifInRange_of_rangeFault_none (by rw [hlen]; exact rangeFault_of_lt h) op _

/-- A store at I, read back: the stored bytes at I and on, the old byte at every other address. -/
theorem read_storeAtIndex (hm : s.mem.wf) (a : Nat) : (s.storeAtIndex op bytes).mem.read a =
    if s.dataAddr 0 ≤ a ∧ a ≤ s.dataAddr k then bytes.getD (a - s.dataAddr 0) 0 else s.mem.read a := by
  have hfit : s.dataAddr 0 + bytes.length ≤ memSize := by
    rw [hlen]
    exact h
  rw [storeAtIndex_of_lt hlen h, finish_mem, read_writeBytes bytes s.mem hm _ hfit, hlen]
  exact if_congr (and_congr_right' Nat.lt_succ_iff) rfl rfl

theorem read_storeAtIndex_dataAddr (hm : s.mem.wf) {j : Nat} (hj : j ≤ k) :
    (s.storeAtIndex op bytes).mem.read (s.dataAddr j) = bytes.getD j 0 := by
  have hin : s.dataAddr 0 ≤ s.dataAddr j ∧ s.dataAddr j ≤ s.dataAddr k := by simp [State.dataAddr, hj]
  have hoffset : s.dataAddr j - s.dataAddr 0 = j := Nat.add_sub_cancel_left _ _
  rw [read_storeAtIndex hlen h op hm, if_pos hin, hoffset]

/-- What a store at I leaves unchanged, and where it leaves PC. -/
theorem storeAtIndex_frame (hm : s.mem.wf) :
    (∀ a, a < s.dataAddr 0 ∨ s.dataAddr k < a → (s.storeAtIndex op bytes).mem.read a = s.mem.read a) ∧
      (s.storeAtIndex op bytes).mem.wf ∧ PcNext s (s.storeAtIndex op bytes) ∧
      s.storeAtIndex op bytes =
        { s with mem := (s.storeAtIndex op bytes).mem, pc := (s.storeAtIndex op bytes).pc } := by
  refine ⟨fun a ha => ?outside, wf_storeAtIndex hm op bytes, ?pc, ?frame⟩
  case outside => rw [read_storeAtIndex hlen h op hm, if_neg (by omega)]
  case pc => rw [storeAtIndex_of_lt hlen h]; exact toNat_newPc_next s.pc
  case frame => rw [storeAtIndex_of_lt hlen h]; rfl

end

/-- Each of the three digits fits its byte. -/
theorem toNat_bcdDigits (b : Byte) : ((bcdDigits b).getD 0 0).toNat = b.toNat / 100 ∧
    ((bcdDigits b).getD 1 0).toNat = b.toNat / 10 % 10 ∧ ((bcdDigits b).getD 2 0).toNat = b.toNat % 10 := by
  have hb := b.isLt
  have hdigit {n : Nat} (hn : n < 256) : (BitVec.ofNat 8 n).toNat = n :=
    (BitVec.toNat_ofNat n 8).trans (Nat.mod_eq_of_lt hn)
  exact ⟨hdigit (by omega), hdigit (by omega), hdigit (by omega)⟩

/-- Settles O33: the three bytes stored at I are the digits; `I + 2` outside memory is LD B,Vx's fault condition. -/
theorem bcdStoresThreeDigits : Obligations.BcdStoresThreeDigits := by
  unfold Obligations.BcdStoresThreeDigits
  refine fun x s => ⟨rfl, fun hm h => ?stores, exec_raises_memRange (i := .ldBVx x) rfl⟩
  have hlen : (bcdDigits (s.getV x)).length = 2 + 1 := rfl
  obtain ⟨hhundreds, htens, hones⟩ := toNat_bcdDigits (s.getV x)
  refine ⟨s.storeAtIndex (encode (.ldBVx x)) (bcdDigits (s.getV x)), rfl, ?hundreds, ?tens, ?ones,
    storeAtIndex_frame hlen h _ hm⟩
  case hundreds => rw [read_storeAtIndex_dataAddr hlen h _ hm (by decide), hhundreds]
  case tens => rw [read_storeAtIndex_dataAddr hlen h _ hm (by decide), htens]
  case ones => rw [read_storeAtIndex_dataAddr hlen h _ hm (by decide), hones]

/-- Settles O34: the byte stored at `I + r` is `V[r]`; `I + x` outside memory is LD [I],Vx's fault condition. -/
theorem registerDumpStoresV0ToVx : Obligations.RegisterDumpStoresV0ToVx := by
  unfold Obligations.RegisterDumpStoresV0ToVx
  refine fun x s => ⟨rfl, fun hm h => ?stores, exec_raises_memRange (i := .ldMemVx x) rfl⟩
  refine ⟨s.storeAtIndex (encode (.ldMemVx x)) (s.regsUpTo x), rfl, fun r hr => ?stored,
    storeAtIndex_frame (length_regsUpTo s x) h _ hm⟩
  case stored =>
    have hlt : r.val < (s.regsUpTo x).length := by rw [length_regsUpTo]; exact Nat.lt_succ_of_le hr
    rw [read_storeAtIndex_dataAddr (length_regsUpTo s x) h _ hm hr, List.getD_eq_getElem _ _ hlt, getElem_regsUpTo]

/-! ### Loads at I (43_index_memory.md R155) -/

/-- LD Vx,[I] inside memory replaces V as a whole: the registers up to `x` come from memory, the others are copied. -/
theorem exec_ldVxMem_of_lt {x : Reg} {s : State} (h : s.i.toNat + x.val < 4096) : ∃ v : Vector Byte 16,
    exec (.ldVxMem x) s = .next { s with v := v, pc := Control.newPc s.pc .next } ∧
      ∀ r : Reg, v[r] = if r ≤ x then s.mem.read (s.dataAddr r.val) else s.getV r := by
  obtain ⟨v, hload⟩ : ∃ v, s.loadRegsUpTo x (s.dataAddr 0) = { s with v := v } := ⟨_, rfl⟩
  have hexec : exec (.ldVxMem x) s = .next ((s.loadRegsUpTo x (s.dataAddr 0)).finish .next) :=
    congrArg Host.Outcome.next (ifInRange_of_rangeFault_none (rangeFault_of_lt h) _ _)
  have hv := getV_loadRegsUpTo s x (s.dataAddr 0)
  rw [hload] at hexec hv
  exact ⟨v, hexec, hv⟩

/-- Settles O35: the registers up to `x` are loaded at once; `I + x` outside memory is LD Vx,[I]'s fault condition. -/
theorem registerLoadReadsV0ToVx : Obligations.RegisterLoadReadsV0ToVx := by
  unfold Obligations.RegisterLoadReadsV0ToVx
  refine fun x s => ⟨rfl, fun h => ?loads, exec_raises_memRange (i := .ldVxMem x) rfl⟩
  obtain ⟨v, hexec, hv⟩ := exec_ldVxMem_of_lt h
  exact ⟨_, hexec, fun r hr => (hv r).trans (if_pos hr), fun r hr => (hv r).trans (if_neg hr.not_ge),
    toNat_newPc_next s.pc, fun _ => rfl, rfl⟩

end Sys2Proof.Proofs
end

section
/-! PROOFS. The sprite blitter, CLS and DRW (44_display.md R160 to R164). -/

namespace Sys2Proof.Proofs

open Sys2Proof.Machine Sys2Proof.Claims Sys2Proof.Laws

/-! ### Toggling a set of cells -/

/-- From `d` to `d'` exactly the display cells of the set `m` are toggled, and a collision is added exactly when one of them
was set. -/
structure Toggles (m : Nat → Nat → Bool) (d d' : Blit) : Prop where
  cells : ∀ r c, r < 32 → c < 64 → cell d'.fb r c = (cell d.fb r c ^^ m r c)
  coll : d'.coll = true ↔ d.coll = true ∨ ∃ r c, r < 32 ∧ c < 64 ∧ cell d.fb r c = true ∧ m r c = true

section
variable {m m₁ m₂ : Nat → Nat → Bool} {d d₁ d₂ : Blit}

theorem toggles_self (hm : ∀ r c, r < 32 → c < 64 → m r c ≠ true) : Toggles m d d where
  cells r c hr hc := by rw [Bool.eq_false_iff.mpr (hm r c hr hc), Bool.xor_false]
  coll := by
    refine ⟨.inl, fun h => h.resolve_right ?_⟩
    rintro ⟨r, c, hr, hc, -, hset⟩
    exact hm r c hr hc hset

/-- Disjoint sets toggled one after the other: no cell of the second was touched before, so it collides as at the start. -/
theorem Toggles.trans (h₁ : Toggles m₁ d d₁) (h₂ : Toggles m₂ d₁ d₂) (hm : ∀ r c, m r c = (m₁ r c || m₂ r c))
    (hdisj : ∀ r c, m₂ r c = true → m₁ r c ≠ true) : Toggles m d d₂ where
  cells r c hr hc := by
    rw [h₂.cells r c hr hc, h₁.cells r c hr hc, hm]
    cases h : m₂ r c with
    | false => simp
    | true => simp [Bool.eq_false_iff.mpr (hdisj r c h)]
  coll := by
    have hlater : ∀ r c, r < 32 ∧ c < 64 ∧ cell d₁.fb r c = true ∧ m₂ r c = true ↔
        r < 32 ∧ c < 64 ∧ cell d.fb r c = true ∧ m₂ r c = true := fun r c =>
      and_congr_right fun hr => and_congr_right fun hc => and_congr_left fun hset => by
        rw [h₁.cells r c hr hc, Bool.eq_false_iff.mpr (hdisj r c hset), Bool.xor_false]
    simp only [h₂.coll, h₁.coll, hlater, hm, Bool.or_eq_true, and_or_left, exists_or, or_assoc]

end

/-! ### Pixel, row, sprite -/

section
variable (px py iy : Nat) (b : Byte)

/-- The cell under pixel `ix` of sprite row `iy`, where its bit is set. -/
def pixelCell (ix r c : Nat) : Bool := decide (r = py + iy ∧ c = px + ix) && b.getLsbD (7 - ix)

/-- The cells under the set bits among the first `n` pixels of sprite row `iy`. -/
def rowCell (n r c : Nat) : Bool := decide (r = py + iy ∧ px ≤ c ∧ c < px + n) && b.getLsbD (7 - (c - px))

theorem pixelCell_iff (ix r c : Nat) :
    pixelCell px py iy b ix r c = true ↔ (r = py + iy ∧ c = px + ix) ∧ b.getLsbD (7 - ix) = true := by
  simp [pixelCell]

theorem rowCell_iff (n r c : Nat) : rowCell px py iy b n r c = true ↔
    (r = py + iy ∧ px ≤ c ∧ c < px + n) ∧ b.getLsbD (7 - (c - px)) = true := by
  simp [rowCell]

theorem spriteCell_iff (sprite : List Byte) (r c : Nat) : spriteCell px py sprite r c = true ↔
    (px ≤ c ∧ c < px + 8 ∧ py ≤ r ∧ r < py + sprite.length) ∧
      (sprite.getD (r - py) 0).getLsbD (7 - (c - px)) = true := by
  simp [spriteCell]

theorem rowCell_succ (n r c : Nat) :
    rowCell px py iy b (n + 1) r c = (rowCell px py iy b n r c || pixelCell px py iy b n r c) := by
  rw [Bool.eq_iff_iff, Bool.or_eq_true, rowCell_iff, rowCell_iff, pixelCell_iff]
  by_cases hc : c = px + n
  · subst hc
    simp
  · have hlt : c < px + (n + 1) ↔ c < px + n := by omega
    simp [hc, hlt]

theorem spriteCell_cons (bs : List Byte) (r c : Nat) : spriteCell px (py + iy) (b :: bs) r c =
    (rowCell px py iy b 8 r c || spriteCell px (py + (iy + 1)) bs r c) := by
  rw [Bool.eq_iff_iff, Bool.or_eq_true, spriteCell_iff, spriteCell_iff, rowCell_iff, List.length_cons]
  rcases lt_trichotomy r (py + iy) with h | rfl | h
  · simp [h.ne, h.not_ge, show ¬ py + (iy + 1) ≤ r by omega]
  · simp [and_assoc]
  · have hget : (b :: bs).getD (r - (py + iy)) 0 = bs.getD (r - (py + (iy + 1))) 0 := by
      rw [show r - (py + iy) = r - (py + (iy + 1)) + 1 by omega, List.getD_cons_succ]
    have hrows : py + iy ≤ r ∧ r < py + iy + (bs.length + 1) ↔
        py + (iy + 1) ≤ r ∧ r < py + (iy + 1) + bs.length := by omega
    simp only [hget, hrows, h.ne', false_and, false_or]

theorem toggles_blitPixel (d : Blit) (ix : Nat) :
    Toggles (pixelCell px py iy b ix) d (blitPixel px py iy b d ix) := by
  rcases blitPixel_cases px py iy b d ix with ⟨hbit, hcol, hrow, h⟩ | ⟨hnot, h⟩
  · rw [h]
    refine ⟨fun r c _ _ => ?cells, ?coll⟩
    case cells => rw [cell_toggleCell _ _ _ _ _ hrow hcol, pixelCell, hbit, Bool.and_true]
    case coll =>
      rw [Bool.or_eq_true]
      refine or_congr_right ⟨fun hset => ⟨_, _, hrow, hcol, hset, (pixelCell_iff ..).mpr ⟨⟨rfl, rfl⟩, hbit⟩⟩, ?_⟩
      rintro ⟨r, c, -, -, hset, hpixel⟩
      obtain ⟨⟨rfl, rfl⟩, -⟩ := (pixelCell_iff ..).mp hpixel
      exact hset
  · rw [h]
    refine toggles_self fun r c hr hc hpixel => hnot ?_
    obtain ⟨⟨rfl, rfl⟩, hbit⟩ := (pixelCell_iff ..).mp hpixel
    exact ⟨hbit, hc, hr⟩

theorem toggles_pixels (d : Blit) (n : Nat) :
    Toggles (rowCell px py iy b n) d ((List.range n).foldl (blitPixel px py iy b) d) := by
  induction n with
  | zero => exact toggles_self fun r c _ _ h => by rw [rowCell_iff] at h; omega
  | succ n ih =>
    rw [List.range_succ, List.foldl_append]
    refine ih.trans (toggles_blitPixel px py iy b _ n) (rowCell_succ px py iy b n) fun r c hpixel hrow => ?disjoint
    case disjoint =>
      rw [pixelCell_iff] at hpixel
      rw [rowCell_iff] at hrow
      omega

theorem toggles_blitRow (d : Blit) : Toggles (rowCell px py iy b 8) d (blitRow px py iy b d) :=
  toggles_pixels px py iy b d 8

end

theorem toggles_blitRows (px py iy : Nat) (sprite : List Byte) (d : Blit) :
    Toggles (spriteCell px (py + iy) sprite) d (blitRows px py iy sprite d) := by
  induction sprite generalizing iy d with
  | nil => exact toggles_self fun r c _ _ h => by rw [spriteCell_iff, List.length_nil] at h; omega
  | cons b bs ih =>
    refine (toggles_blitRow px py iy b d).trans (ih (iy + 1) _) (spriteCell_cons px py iy b bs)
      fun r c hbelow hrow => ?disjoint
    case disjoint =>
      rw [spriteCell_iff] at hbelow
      rw [rowCell_iff] at hrow
      omega

theorem toggles_draw (fb : FrameBuffer) (px py : Nat) (sprite : List Byte) :
    Toggles (spriteCell px py sprite) { fb := fb, coll := false } (draw fb px py sprite) :=
  toggles_blitRows px py 0 sprite _

/-! ### A draw (44_display.md R162, R164) -/

section
variable (fb : FrameBuffer) (px py : Nat) (sprite : List Byte)

theorem cell_draw {r c : Nat} (hr : r < 32) (hc : c < 64) :
    cell (draw fb px py sprite).fb r c = (cell fb r c ^^ spriteCell px py sprite r c) :=
  (toggles_draw fb px py sprite).cells r c hr hc

theorem coll_draw_iff : (draw fb px py sprite).coll = true ↔
    ∃ r c, r < 32 ∧ c < 64 ∧ cell fb r c = true ∧ spriteCell px py sprite r c = true :=
  (toggles_draw fb px py sprite).coll.trans (or_iff_right Bool.false_ne_true)

end

/-- Settles O37: pixel by pixel and row by row, a draw toggles disjoint sets of cells whose union is the sprite's. -/
theorem blitterTogglesExactlyTheVisibleSprite : Obligations.BlitterTogglesExactlyTheVisibleSprite := by
  unfold Obligations.BlitterTogglesExactlyTheVisibleSprite
  exact fun fb px py sprite => ⟨fun _ _ => cell_draw fb px py sprite, coll_draw_iff fb px py sprite⟩

/-- Settles O39: each cell is inverted twice or never, and one under the sprite is set for the second draw exactly when it was
unset for the first. -/
theorem drawingTwiceRestoresTheFrame : Obligations.DrawingTwiceRestoresTheFrame := by
  unfold Obligations.DrawingTwiceRestoresTheFrame
  refine fun fb px py sprite => ⟨fb_ext _ _ fun r c hr hc => ?restored, ?flag⟩
  case restored =>
    rw [cell_draw _ _ _ _ hr hc, cell_draw _ _ _ _ hr hc, Bool.xor_assoc, Bool.xor_self, Bool.xor_false]
  case flag =>
    rw [coll_draw_iff]
    refine exists₂_congr fun r c => and_congr_right fun hr => and_congr_right fun hc => and_congr_left fun hset => ?_
    rw [cell_draw _ _ _ _ hr hc, hset, Bool.xor_true, Bool.not_eq_true']

/-! ### CLS and DRW (44_display.md R160, R161) -/

/-- Settles O36: the new frame buffer is the blank one, whatever the old one was. -/
theorem clearUnsetsEveryCell : Obligations.ClearUnsetsEveryCell := by
  unfold Obligations.ClearUnsetsEveryCell
  exact ⟨rfl, fun s => ⟨_, rfl, fun r c _ _ => cell_blankFrame r c, rfl, toNat_newPc_next s.pc, fun _ => rfl, rfl⟩⟩

theorem flagByte_eq_one_iff (b : Bool) : flagByte b = 1 ↔ b = true := by cases b <;> decide

theorem exec_drwVxVyN_of_fits (x y : Reg) {n : Nat} {s : State} (h : n = 0 ∨ s.i.toNat + n - 1 < 4096) :
    exec (.drwVxVyN x y n) s =
      .next ((s.drawSprite (s.getV x) (s.getV y) (s.mem.readBytes (s.dataAddr 0) n)).finish .next) :=
  congrArg Host.Outcome.next (ifInRange_of_rangeFault_none (if_neg (by omega)) _ _)

/-- Settles O38: inside memory the instruction is one draw of the bytes at I; a last row outside is DRW's fault condition. -/
theorem drawReadsTheSpriteAtI : Obligations.DrawReadsTheSpriteAtI := by
  unfold Obligations.DrawReadsTheSpriteAtI
  refine fun x y n s _ => ⟨rfl, fun h => ?draws, fun hpos h => ?faults⟩
  case draws =>
    refine ⟨_, exec_drwVxVyN_of_fits x y h, fun _ _ => cell_draw _ _ _ _, ?flag, ?collision,
      fun r (hr : r ≠ vf) => ?others, rfl, toNat_newPc_next s.pc, fun _ => rfl, rfl⟩
    all_goals rw [getV_finish, getV_drawSprite]
    case flag => exact flagByte_zero_or_one _
    case collision => exact (flagByte_eq_one_iff _).trans (coll_draw_iff _ _ _ _)
    case others => exact if_neg hr
  case faults =>
    obtain ⟨k, rfl⟩ := Nat.exists_eq_succ_of_ne_zero hpos.ne'
    exact exec_raises_memRange (i := .drwVxVyN x y (k + 1)) rfl h

end Sys2Proof.Proofs
end

section
/-! PROOFS. The key skips, the key wait and the timer moves (45_keypad_timers.md R170 to R177). -/

namespace Sys2Proof.Proofs

open Sys2Proof.Machine Sys2Proof.Claims Sys2Proof.Laws

/-! ### The poll and the match test (45_keypad_timers.md R171, R172) -/

theorem toNat_zextKey (k : KeyCode) : (zextKey k).toNat = k.toNat :=
  BitVec.toNat_setWidth_of_le (by decide)

/-- Zero extension keeps the key's code, so the bytes are equal exactly when the numbers are. -/
theorem keyMatches_refresh_iff (s : State) (x : Reg) : s.refresh.keyMatches x = true ↔ KeyMatch s x := by
  rw [keyMatches_iff, refresh_key]
  refine exists_congr fun k => and_congr_right fun _ => ?_
  rw [getV_refresh, ← BitVec.toNat_inj, toNat_zextKey]

/-! ### SKP and SKNP (45_keypad_timers.md R172, R173) -/

section
variable {s : State} {x : Reg} (skipOn : Bool)

theorem keySkip_of_keyMatch (h : KeyMatch s x) : s.keySkip x skipOn = s.refresh.clearKey.finish (skipIf skipOn) :=
  if_pos ((keyMatches_refresh_iff s x).mpr h)

theorem keySkip_of_not_keyMatch (h : ¬ KeyMatch s x) : s.keySkip x skipOn = s.refresh.finish (skipIf !skipOn) :=
  if_neg (mt (keyMatches_refresh_iff s x).mp h)

end

/-- Whatever the test answers, one poll is taken, and only the latch, the key feed and PC change. -/
theorem keySkip_frame (s : State) (x : Reg) (skipOn : Bool) :
    (s.keySkip x skipOn).keyFeed = s.keyFeed.advance ∧ SameMemory s (s.keySkip x skipOn) ∧
      s.keySkip x skipOn = { s with key := (s.keySkip x skipOn).key, keyFeed := (s.keySkip x skipOn).keyFeed,
                                    pc := (s.keySkip x skipOn).pc } := by
  by_cases h : KeyMatch s x
  · rw [keySkip_of_keyMatch skipOn h]
    exact ⟨rfl, fun _ => rfl, rfl⟩
  · rw [keySkip_of_not_keyMatch skipOn h]
    exact ⟨rfl, fun _ => rfl, rfl⟩

/-- Settles O40: the key skip whose class on a match is skip. -/
theorem skipIfKeyConsumesAMatch : Obligations.SkipIfKeyConsumesAMatch := by
  unfold Obligations.SkipIfKeyConsumesAMatch
  refine fun x s => ⟨rfl, s.keySkip x true, rfl, fun h => ?hit, fun h => ?miss, keySkip_frame s x true⟩
  case hit => rw [keySkip_of_keyMatch true h]; exact ⟨rfl, toNat_newPc_skip s.pc⟩
  case miss => rw [keySkip_of_not_keyMatch true h]; exact ⟨refresh_key s, toNat_newPc_next s.pc⟩

/-- Settles O41: the key skip whose class on a match is next. -/
theorem skipIfNoKeyConsumesAMatch : Obligations.SkipIfNoKeyConsumesAMatch := by
  unfold Obligations.SkipIfNoKeyConsumesAMatch
  refine fun x s => ⟨rfl, s.keySkip x false, rfl, fun h => ?hit, fun h => ?miss, keySkip_frame s x false⟩
  case hit => rw [keySkip_of_keyMatch false h]; exact ⟨rfl, toNat_newPc_next s.pc⟩
  case miss => rw [keySkip_of_not_keyMatch false h]; exact ⟨refresh_key s, toNat_newPc_skip s.pc⟩

/-! ### The key wait (45_keypad_timers.md R174) -/

/-- A step that jumps to its own address changes nothing: the re-issue of R174. -/
theorem finish_jump_self (s : State) : s.finish (.jump s.pc.toNat) = s := by
  rw [State.finish, newPc_jump_toNat]

/-- With no polled and no latched key, the poll leaves only its trace in the feed. -/
theorem refresh_of_latched_none {s : State} (h : latched s = none) :
    s.refresh = { s with keyFeed := s.keyFeed.advance } := by
  obtain ⟨hpoll, -⟩ := Option.or_eq_none_iff.mp h
  have hkey : s.refresh.key = s.key := by rw [refresh_key, hpoll, Option.none_or]
  calc s.refresh = { s with keyFeed := s.keyFeed.advance, key := s.refresh.key } := rfl
    _ = { s with keyFeed := s.keyFeed.advance } := by rw [hkey]

theorem takeKeyOrWait_of_some {s : State} {k : KeyCode} (h : s.key = some k) (x : Reg) :
    s.takeKeyOrWait x = (s.setV x (zextKey k)).finish .next := by
  rw [State.takeKeyOrWait, h]

theorem takeKeyOrWait_of_none {s : State} (h : s.key = none) (x : Reg) : s.takeKeyOrWait x = s := by
  rw [State.takeKeyOrWait, h]
  exact finish_jump_self s

/-- Settles O42: with a key the refreshed state has one register written; without one it is left by a jump in place. -/
theorem keyWaitLoadsOrReissues : Obligations.KeyWaitLoadsOrReissues := by
  unfold Obligations.KeyWaitLoadsOrReissues
  refine fun x s => ⟨rfl, fun k h => ?takes, fun h => ?waits⟩
  case takes =>
    have hkey : s.refresh.key = some k := (refresh_key s).trans h
    obtain ⟨hx, hothers, hpc, hmem, -⟩ := onlyRegister_setV_finish s.refresh x (zextKey k)
    refine ⟨_, congrArg Host.Outcome.next (takeKeyOrWait_of_some hkey x), ?_, hothers, hkey, rfl, hpc, hmem, rfl⟩
    rw [hx, toNat_zextKey]
  case waits =>
    have hkey : s.refresh.key = none := (refresh_key s).trans h
    rw [← refresh_of_latched_none h]
    exact congrArg Host.Outcome.next (takeKeyOrWait_of_none hkey x)

/-! ### The timer moves (45_keypad_timers.md R175 to R177) -/

/-- Settles O43: one register is written, with the DT of the state before. -/
theorem readDelayTimer : Obligations.ReadDelayTimer := by
  unfold Obligations.ReadDelayTimer
  exact fun x s => ⟨rfl, _, rfl, onlyRegister_setV_finish s x s.dt⟩

/-- Settles O44: only DT is written before the step moves PC. -/
theorem setDelayTimer : Obligations.SetDelayTimer := by
  unfold Obligations.SetDelayTimer
  exact fun x s => ⟨rfl, _, rfl, rfl, toNat_newPc_next s.pc, fun _ => rfl, rfl⟩

theorem soundOn_iff (s : State) : s.soundOn = true ↔ s.st ≠ 0 := decide_eq_true_iff

/-- Settles O45: the sound output is a function of ST, so it follows the write. -/
theorem setSoundTimer : Obligations.SetSoundTimer := by
  unfold Obligations.SetSoundTimer
  exact fun x s => ⟨rfl, _, rfl, rfl, soundOn_iff _, toNat_newPc_next s.pc, fun _ => rfl, rfl⟩

end Sys2Proof.Proofs
end

section
/-! PROOFS. The timer agents: one tick, ticks in any order, and the ticks that may follow a step (60_exceptions.md R195 to
R197, 70_reset_and_hazards.md R216). -/

namespace Sys2Proof.Proofs

open Sys2Proof.Machine Sys2Proof.Claims Sys2Proof.Laws Sys2Proof.Safety

/-! ### One tick (60_exceptions.md R195, R196) -/

/-- Truncated subtraction has the rule's floor 0. -/
theorem tickTimer_toNat_eq_ite (t : Byte) : (tickTimer t).toNat = if t.toNat ≠ 0 then t.toNat - 1 else 0 := by
  rw [tickTimer_toNat]
  split <;> omega

/-- Settles O46: each agent's action writes its own timer, and asks for no run state. -/
theorem tickCountsDownToZero : Obligations.TickCountsDownToZero := by
  unfold Obligations.TickCountsDownToZero
  exact fun s => ⟨⟨s.tickDelay, rfl, tickTimer_toNat_eq_ite s.dt, rfl⟩, s.tickSound, rfl, tickTimer_toNat_eq_ite s.st, rfl⟩

/-! ### Ticks in any order (60_exceptions.md R195, R196) -/

/-- Ticks of the two agents, however interleaved, are the ticks of each timer at once. -/
theorem runActions_of_isTick {ticks : List Action} (hticks : ∀ a ∈ ticks, IsTick a) (mayLoad : Bool) (s : State) :
    runActions mayLoad ticks s = .next { s with dt := tickTimes (ticks.count .delayTick) s.dt
                                                st := tickTimes (ticks.count .soundTick) s.st } := by
  induction ticks generalizing s with
  | nil => rw [List.count_nil, List.count_nil, tickTimes_zero, tickTimes_zero]; rfl
  | cons a rest ih =>
    obtain ⟨ha, hrest⟩ := List.forall_mem_cons.mp hticks
    rcases ha with rfl | rfl
    · rw [List.count_cons_self, List.count_cons_of_ne (by decide), tickTimes_succ]
      exact (runActions_cons rfl rfl rest).trans (ih hrest s.tickDelay)
    · rw [List.count_cons_self, List.count_cons_of_ne (by decide), tickTimes_succ]
      exact (runActions_cons rfl rfl rest).trans (ih hrest s.tickSound)

/-- Settles O47: each timer sees its own ticks only, and so many ticks at once subtract their count. -/
theorem ticksInAnyOrderAddUp : Obligations.TicksInAnyOrderAddUp := by
  unfold Obligations.TicksInAnyOrderAddUp
  exact fun s mayLoad ticks hticks =>
    ⟨_, runActions_of_isTick hticks mayLoad s, tickTimes_toNat _ s.dt, tickTimes_toNat _ s.st, rfl⟩

/-! ### The engine under other tick counts -/

/-- The engine's step commutes with any change of the tick feeds, which it does not take. -/
theorem engineStep_mapInputs_tickFeeds (fd fs : Feed Nat → Feed Nat) (s : State) :
    engineStep (mapInputs id id fd fs s) = onNext (mapInputs id id fd fs) (engineStep s) := by
  rcases engineStep_cases s with ⟨hfault, he⟩ | ⟨hrun, hpc, he⟩ | ⟨hrun, hpc, ⟨e, hd⟩, he⟩ | ⟨hrun, hpc, i, hd, he⟩
  · rw [he]; exact engineStep_of_endedInFault hfault
  · rw [he]; exact engineStep_of_endedNormally ⟨hrun, hpc⟩
  · rw [he]; exact engineStep_of_decode_error (s := mapInputs id id fd fs s) hrun hpc hd
  · rw [he, ← exec_mapInputs id id fd fs s (fun _ => rfl) (fun _ => rfl)]
    exact engineStep_of_decode_ok (s := mapInputs id id fd fs s) hrun hpc hd

/-- The engine's step and then any ticks are one machine step whose feeds hold the counts of those ticks (60_exceptions.md
R197). -/
theorem step_of_runActions_engine_ticks {s u : State} {ticks : List Action} (hticks : ∀ a ∈ ticks, IsTick a)
    (h : runActions false (.engine :: ticks) s = .next u) (m n : Nat) :
    step { s with delayFeed := { queued := [ticks.count .delayTick], taken := m }
                  soundFeed := { queued := [ticks.count .soundTick], taken := n } } =
      .next { u with delayFeed := { queued := [], taken := m + 1 }, soundFeed := { queued := [], taken := n + 1 } } := by
  obtain ⟨v, hv⟩ := exists_engineStep_next s
  rw [runActions_cons (a := .engine) rfl hv, runActions_of_isTick hticks] at h
  cases h
  have hengine := engineStep_mapInputs_tickFeeds (fun _ => { queued := [ticks.count .delayTick], taken := m })
    (fun _ => { queued := [ticks.count .soundTick], taken := n }) s
  rw [hv] at hengine
  exact (step_next _ _).mpr ⟨_, hengine, rfl⟩

/-! ### Weak fairness along a run (70_reset_and_hazards.md R216) -/

/-- A machine step takes one count from each tick feed. -/
theorem tickFeeds_of_step {s t : State} (h : step s = .next t) :
    t.delayFeed = s.delayFeed.advance ∧ t.soundFeed = s.soundFeed.advance := by
  obtain ⟨u, hu, rfl⟩ := (step_next s t).mp h
  obtain ⟨hd, hs⟩ := tickFeeds_of_engineStep hu
  exact ⟨congrArg Feed.advance hd, congrArg Feed.advance hs⟩

theorem tickFeeds_of_runsTo {m : Nat} {s t : State} (h : RunsTo m s t) :
    t.delayFeed = Feed.advance^[m] s.delayFeed ∧ t.soundFeed = Feed.advance^[m] s.soundFeed := by
  induction m generalizing s with
  | zero => cases (runsTo_zero s t).mp h; exact ⟨rfl, rfl⟩
  | succ m ih =>
    obtain ⟨u, hu⟩ := exists_step_next s
    obtain ⟨hd, hs⟩ := tickFeeds_of_step hu
    rw [Function.iterate_succ_apply, Function.iterate_succ_apply, ← hd, ← hs]
    exact ih ((runsTo_succ m s t u hu).mp h)

/-- A fair agent whose feed every step of a run advances ticks again, however long the run. -/
theorem exists_runsTo_peek_ne_zero {ticks : Nat → Nat} (hfair : FairTicks ticks) {s : State} {feed : State → Feed Nat}
    (hfeed : ∀ {m t}, RunsTo m s t → feed t = Feed.advance^[m] (feed s)) (n : Nat) :
    ∃ m t, n ≤ m ∧ RunsTo m s t ∧ (feed t).peek ticks ≠ 0 := by
  obtain ⟨m, hm, hne⟩ := peek_iterate_advance_ne_zero hfair (feed s) n
  obtain ⟨t, ht⟩ := exists_runsTo m s
  rw [← hfeed ht] at hne
  exact ⟨m, t, hm, ht, hne⟩

/-- Settles O13: the engine does not see the tick counts, so they may be set to whatever ticks follow; and every free schedule
is fair, so past any fixed counts both agents go on ticking. -/
theorem anyTicksMayFollowAStep : Obligations.AnyTicksMayFollowAStep := by
  unfold Obligations.AnyTicksMayFollowAStep
  refine ⟨fun s u ticks m n hticks h => step_of_runActions_engine_ticks hticks h m n, fun s n => ⟨?delay, ?sound⟩⟩
  case delay =>
    exact exists_runsTo_peek_ne_zero (feed := State.delayFeed) (fairTicks_freeTicks _ _)
      (fun h => (tickFeeds_of_runsTo h).left) n
  case sound =>
    exact exists_runsTo_peek_ne_zero (feed := State.soundFeed) (fairTicks_freeTicks _ _)
      (fun h => (tickFeeds_of_runsTo h).right) n

end Sys2Proof.Proofs
end

section
/-! PROOFS. Faults: when one is raised, and the record it leaves (60_exceptions.md R180 to R185). -/

namespace Sys2Proof.Proofs

open Sys2Proof.Machine Sys2Proof.Claims Sys2Proof.Laws Sys2Proof.Safety

/-! ### A word that is no instruction (60_exceptions.md R181) -/

/-- Settles O8: the word of the two bytes is the fetched one, and a decode error raises DecodeFailure. -/
theorem illegalWordRaisesDecodeFailure : Obligations.IllegalWordRaisesDecodeFailure := by
  unfold Obligations.IllegalWordRaisesDecodeFailure
  intro s op hrun hpc hop hd
  have hfetch : s.fetch = op := BitVec.eq_of_toNat_eq ((fetch_toNat s).trans hop.symm)
  subst hfetch
  exact ⟨_, engineStep_of_decode_error hrun hpc hd, rfl, raised_raise s _ _ (by decide)⟩

/-! ### The record of a fault (60_exceptions.md R184) -/

/-- What a fault records: the address of a MemRange, and 0 for the three others (60_exceptions.md R180, 20_memory.md R54). -/
inductive FaultRecord (s : State) : FaultCode → Nat → Prop
  | memRange : FaultRecord s .memRange (max s.i.toNat 4096)
  | decodeFailure : FaultRecord s .decodeFailure 0
  | stackOverflow : FaultRecord s .stackOverflow 0
  | stackUnderflow : FaultRecord s .stackUnderflow 0

theorem faultRecord_of_faultOf {i : Instr} {s : State} {f : FaultCode} {a : Nat} (hf : faultOf s i = some (f, a)) :
    FaultRecord s f a := by
  rcases fault_of_faultOf hf with ⟨rfl, rfl⟩ | ⟨rfl, rfl⟩ | ⟨rfl, rfl⟩
  · exact .memRange
  · exact .stackOverflow
  · exact .stackUnderflow

theorem FaultRecord.code_ne_none {s : State} {f : FaultCode} {a : Nat} (h : FaultRecord s f a) : f ≠ .none := by
  cases h <;> decide

theorem FaultRecord.addr_of_memRange {s : State} {f : FaultCode} {a : Nat} (h : FaultRecord s f a) (hf : f = .memRange) :
    a = max s.i.toNat 4096 := by
  cases h with
  | memRange => rfl
  | decodeFailure | stackOverflow | stackUnderflow => cases hf

theorem FaultRecord.addr_of_ne_memRange {s : State} {f : FaultCode} {a : Nat} (h : FaultRecord s f a)
    (hf : f ≠ .memRange) : a = 0 := by
  cases h with
  | memRange => exact absurd rfl hf
  | decodeFailure | stackOverflow | stackUnderflow => rfl

/-- The recorded address fits the 17 bits of FAULT_ADDR. -/
theorem raised_raise_of_faultRecord {s : State} {f : FaultCode} {a : Nat} (h : FaultRecord s f a) (op : Word) :
    Raised s (s.raise f op a) f op a := by
  refine raised_raise s f op ?_
  have hi := s.i.isLt
  cases h <;> omega

/-- Settles O49: an instruction either raises the fault its condition names, or completes, and then it writes neither the run
state nor the fault registers. -/
theorem instructionsFaultExactlyAsListed : Obligations.InstructionsFaultExactlyAsListed := by
  unfold Obligations.InstructionsFaultExactlyAsListed
  intro i s t hrun h
  rcases exec_cases h with ⟨f, a, hf, rfl⟩ | ⟨hf, hc⟩
  · refine ⟨fun g b hg => ?_, fun hnone => by cases hf.symm.trans hnone⟩
    cases hf.symm.trans hg
    exact raised_raise_of_faultRecord (faultRecord_of_faultOf hf) _
  · refine ⟨fun g b hg => ?_, fun _ => ⟨(completes_runState hc).trans hrun, completes_faultRegs hc⟩⟩
    cases hf.symm.trans hg

/-! ### A step that faults (60_exceptions.md R184) -/

/-- The one way a running engine's step ends Faulted: a fault raised under the fetched word. -/
theorem raise_of_engineStep_faulted {s t : State} (hrun : s.runState = .running) (h : engineStep s = .next t)
    (hfault : t.runState = .faulted) : ∃ f a, FaultRecord s f a ∧ t = s.raise f s.fetch a := by
  rcases engineStep_cases s with ⟨hs, -⟩ | ⟨-, -, he⟩ | ⟨-, -, -, he⟩ | ⟨-, -, i, hd, he⟩
  · cases hrun.symm.trans hs
  · cases he.symm.trans h; cases hrun.symm.trans hfault
  · cases he.symm.trans h; exact ⟨_, _, .decodeFailure, rfl⟩
  · rcases exec_cases (he.symm.trans h) with ⟨f, a, hf, rfl⟩ | ⟨-, hc⟩
    · exact ⟨f, a, faultRecord_of_faultOf hf, by rw [encode_of_decode hd]⟩
    · cases (hrun.symm.trans (completes_runState hc).symm).trans hfault

/-- Settles O48: a step that faults is one `raise`, of the fetched word, with its code's address. -/
theorem faultsArePrecise : Obligations.FaultsArePrecise := by
  unfold Obligations.FaultsArePrecise
  intro s t hrun h hfault
  obtain ⟨f, a, hrec, rfl⟩ := raise_of_engineStep_faulted hrun h hfault
  obtain ⟨-, -, -, -, haddr, hmem, -⟩ := raised_raise_of_faultRecord hrec s.fetch
  refine ⟨hrec.code_ne_none, rfl, fetch_toNat s, fun hf => ?range, fun hf => ?other, isFaulted_of_endedInFault hfault,
    ?ended, hmem, rfl⟩
  case range => exact haddr.trans (hrec.addr_of_memRange hf)
  case other => exact congrArg (BitVec.ofNat 17) (hrec.addr_of_ne_memRange hf)
  case ended => rintro ⟨hr, -⟩; cases hr

end Sys2Proof.Proofs
end

section
/-! PROOFS. The words of the test vectors (95_test_vectors.md T8), through the encoder and the opcode table. -/

namespace Sys2Proof.Proofs

open Sys2Proof.Claims

theorem decode_eq_ok {op : Word} (i : Instr) (hwf : i.wf = true) (hop : encode i = op) : decode op = .ok i :=
  (decode_eq_ok_iff op i).mpr ⟨hwf, hop⟩

theorem illegal_of_no_match {op : Word}
    (h : ∀ k, k < 34 → op &&& (tableRows.getD k (0, 0)).1 ≠ (tableRows.getD k (0, 0)).2) :
    decode op = .error (.illegal op) :=
  (rowMatchSelectsTheInstruction op).2.mpr h

/-- Settles O6: each legal word is the encoding of its instruction, and no row of the table matches an illegal one. -/
theorem writtenWordsDecode : Obligations.WrittenWordsDecode := by
  unfold Obligations.WrittenWordsDecode
  refine ⟨decode_eq_ok .cls rfl ?_, decode_eq_ok .ret rfl ?_, decode_eq_ok (.jp 0xABC) rfl ?_,
    decode_eq_ok (.seVxKk 10 0x42) rfl ?_, decode_eq_ok (.seVxVy 10 11) rfl ?_, decode_eq_ok (.shlVx 10 11) rfl ?_,
    decode_eq_ok (.sneVxVy 10 11) rfl ?_, decode_eq_ok (.drwVxVyN 10 11 5) rfl ?_, decode_eq_ok (.sknpVx 10) rfl ?_,
    decode_eq_ok (.ldVxMem 10) rfl ?_, illegal_of_no_match ?_, illegal_of_no_match ?_, illegal_of_no_match ?_,
    illegal_of_no_match ?_, illegal_of_no_match ?_⟩ <;> decide

end Sys2Proof.Proofs
end
